-- ==== Sys2Proof/Word.lean ====
section
/-! DEFINITION. The words of the block: bytes and 16-bit halves (00_scope.md section 7). -/

namespace Sys2Proof

/-- A byte: 8 bits, bit 0 least significant (00_scope.md section 7). -/
abbrev Byte := BitVec 8

/-- A 16-bit word: `target_flow`, `seq_value`, `h_wdata` (R24, R26, R38). -/
abbrev Half := BitVec 16

end Sys2Proof
end

