-- ==== Sys2Proof/Config.lean ====
section
/-! DEFINITION. The constants of R6, the parameters of R7 and R8, and the free values: what TRANSPORT and
TIMEBASE answer when the state does not say (R9). -/

namespace Sys2Proof

/-- The two directions a Motor frame can name (R6: DIR_FWD, DIR_BWD). -/
inductive Direction where
  | forward
  | backward
  deriving DecidableEq, Repr, Inhabited

/-- The other direction (R8: DIR_CLOSE is "the other one"). -/
def Direction.other : Direction → Direction
  | .forward => .backward
  | .backward => .forward

/-- What one `TransportRead()` answers (R4, R262). -/
inductive ReadAnswer where
  | byte (b : Byte)
  | noData
  | error
  deriving DecidableEq, Repr, Inhabited

/-- What one `TransportWrite()` answers (R4, R262). -/
inductive WriteAnswer where
  | ok
  | error
  deriving DecidableEq, Repr, Inhabited

/-- START, the start sentinel (R6). -/
def Config.startByte : Byte := 0xAA
/-- MIN_LEN (R6). -/
def Config.minLen : Nat := 4
/-- MAX_LEN (R6). -/
def Config.maxLen : Nat := 255
/-- MAX_PAYLOAD (R6). -/
def Config.maxPayload : Nat := 251
/-- TAG_MOTOR, 'M' (R6, R92). -/
def Config.tagMotor : Byte := 0x4D
/-- TAG_FLOW, 'F' (R6, R92). -/
def Config.tagFlow : Byte := 0x46
/-- TAG_TEST, 'T' (R6, R92). PRESUMED: ASCII, general knowledge by the spec's own G1 (log 15). -/
def Config.tagTest : Byte := 0x54
/-- DIR_FWD, 'F' (R6). -/
def Config.dirFwd : Byte := 0x46
/-- DIR_BWD, 'B' (R6). PRESUMED: ASCII, general knowledge by the spec's own G1 (log 15). -/
def Config.dirBwd : Byte := 0x42
/-- STEP_UNIT (R6). -/
def Config.stepUnit : Nat := 200
/-- STEP_MULT (R6). -/
def Config.stepMult : Nat := 1

/-- The parameters of R7 and R8 with their constraints (R291 item 3). A value outside them is "not a
configuration of this block" (U8) and cannot be built. INIT_STEPS, TOL_FRAC and TIME_W have the defaults of R8's
table; the defaults of CAL and TICK_HZ only show Lean that the type has a member, and no definition uses them
(log 4). RATE_FMT, POLL_INTERVAL and
CYCLE_INTERVAL are read by no rule and are not here (logs 8 and 19). -/
structure Params where
  /-- MAX_TRAVEL_STEPS (R7), OPEN. -/
  maxTravel : Nat
  /-- INIT_STEPS (R8), default 0. -/
  initSteps : Nat := 0
  /-- CAL (R7), a non-negative rational, OPEN. -/
  cal : Rat := 0
  /-- TOL_FRAC (R7), default 1/4. -/
  tolFrac : Rat := 1 / 4
  /-- MAX_POLLS (R7), OPEN. -/
  maxPolls : Nat
  /-- DIR_OPEN (R8), OPEN. -/
  dirOpen : Direction
  /-- RX_CLEAR_ON_WAIT (R8, R178), OPEN. -/
  rxClearOnWait : Bool
  /-- TICK_HZ (R8), positive, OPEN. -/
  tickHz : Nat := 1
  /-- TIME_W (R8), default 32. -/
  timeW : Nat := 32
  initSteps_le : initSteps ≤ maxTravel := by decide
  cal_nonneg : 0 ≤ cal := by norm_num
  tolFrac_nonneg : 0 ≤ tolFrac := by norm_num
  tolFrac_le_one : tolFrac ≤ 1 := by norm_num
  tickHz_pos : 0 < tickHz := by decide
  deriving DecidableEq, Repr, Inhabited

/-- STEPS_W: the least w with 2^w above MAX_TRAVEL_STEPS (R8). -/
def Params.stepsW (p : Params) : Nat := Nat.size p.maxTravel

/-- FREE: the parameters this block was built with (R7, R8: "each a named argument of the model"). Safe:
nothing but their constraints can be proved of them (log 4). -/
opaque Config.params : Params

/-- One `TransportWrite()` with the list it was given and its answer (R63, R262). -/
structure LinkWrite where
  bytes : List Byte
  answer : WriteAnswer
  deriving DecidableEq, Repr, Inhabited

/-- FREE: TRANSPORT's answer to the read attempt with this number, after these writes (R262: "a
function from the block's request history to answers"). Safe (log 2). -/
opaque Config.readAnswer : Nat → List LinkWrite → ReadAnswer

/-- FREE: TRANSPORT's answer to the write with this number, after these writes (R262). Safe (log 2). -/
opaque Config.writeAnswer : Nat → List LinkWrite → WriteAnswer

/-- FREE: the timebase's value at the `Now()` with this number (R263). Safe (log 3). -/
opaque Config.timeNow : Nat → Nat

end Sys2Proof
end

