-- ==== Sys2Proof/Syntax.lean ====
section
/-! DEFINITION. The operations of the block, one constructor for each row of opcode_table.json (D34), and the
host access a host row is decoded from. -/

namespace Sys2Proof

/-- One host access at the host port (R38: `h_we`, `h_idx`, `h_wdata`). -/
structure HostAccess where
  we : Bool
  idx : BitVec 3
  wdata : Half
  deriving DecidableEq, Repr, Inhabited

/-- One operation. Frames carry their operand bytes, received-byte rows the byte (RX_START's is fixed), host rows
their index or data, block steps nothing. -/
inductive Instr where
  /-- MOTOR (R93): request, direction, step count, multiplier. -/
  | motor (d s m : Byte)
  /-- FLOW (R94): request. -/
  | flow
  /-- TEST (R95): request. -/
  | test
  /-- FLOW.R (R96): reply with a two-byte pulse count, low byte first. -/
  | flowR (l h : Byte)
  /-- FLOW.BADLEN (R101 e): a received frame tagged 'F' that is not a Flow reply. -/
  | flowBadLen (payload : List Byte)
  /-- MOTOR.R (R98): reply, any payload. -/
  | motorR (payload : List Byte)
  /-- TEST.R (R99): reply, any payload. -/
  | testR (payload : List Byte)
  /-- FRAME (R100): any other tag. -/
  | frame (tag : Byte) (payload : List Byte)
  /-- RX_START (R141). -/
  | rxStart
  /-- RX_DROP (R142). -/
  | rxDrop (b : Byte)
  /-- RX_BADLEN (R143). -/
  | rxBadLen (b : Byte)
  /-- RX_LEN (R144). -/
  | rxLen (b : Byte)
  /-- RX_DATA (R145). -/
  | rxData (b : Byte)
  /-- RX_LAST (R146). -/
  | rxLast (b : Byte)
  /-- SET_TARGET (R201). -/
  | setTarget (v : Half)
  /-- START (R202). -/
  | start
  /-- STOP (R203). -/
  | stop
  /-- FULLY_OPEN (R214). -/
  | fullyOpen
  /-- FULLY_CLOSE (R217). -/
  | fullyClose
  /-- TEST_OP (R219): the host operation TEST. -/
  | testOp
  /-- RESERVED_OP0 (R220). -/
  | reservedOp0
  /-- RESERVED_OP6_7 (R220): op 6 or 7. -/
  | reservedOp67 (op : BitVec 3)
  /-- WRITE_IGNORED_2_3 (R33): a write to index 2 or 3. -/
  | writeIgnored23 (idx : BitVec 3)
  /-- WRITE_IGNORED_4_7 (R33): a write to index 4 to 7. -/
  | writeIgnored47 (idx : BitVec 3)
  /-- HOST_READ (R33, R72). -/
  | hostRead (idx : BitVec 3)
  /-- SEQ_WRITE (R172). -/
  | seqWrite
  /-- SEQ_POLL (R173). -/
  | seqPoll
  /-- CY_TOP (R204). -/
  | cyTop
  /-- CY_SAMPLE (R205). -/
  | cySample
  /-- CY_ACK (R210). -/
  | cyAck
  /-- CY_WAKE (R212). -/
  | cyWake
  /-- OS_MOVE (R215). -/
  | osMove
  /-- OS_END (R216). -/
  | osEnd
  /-- OS_NEXT (R223). -/
  | osNext
  /-- TEST_DONE (R219). -/
  | testDone
  deriving DecidableEq, Repr

end Sys2Proof
end

