-- ==== Sys2Proof/WellFormed.lean ====
section
/-! DEFINITION. Which operations have an encoding: the conditions that opcode_table.json writes in a row's fields. -/

namespace Sys2Proof

/-- A payload fits a frame: at most 251 bytes (R90, R91). -/
def payloadFits (p : List Byte) : Bool := p.length ≤ Config.maxPayload

/-- The operand conditions of each row. A Motor request's direction byte is not among them: a byte that is no
direction is what `send_motor` answers InvalidDirection to (R101 f, R175; log 21). -/
def Instr.wellFormed : Instr → Bool
  | .motor _ _ _ => true
  | .flow => true
  | .test => true
  | .flowR _ _ => true
  | .flowBadLen p => payloadFits p && p.length != 2
  | .motorR p => payloadFits p
  | .testR p => payloadFits p
  | .frame t p =>
      payloadFits p && t != Config.tagMotor && t != Config.tagFlow && t != Config.tagTest
  | .rxStart => true
  | .rxDrop b => b != Config.startByte
  | .rxBadLen b => b.toNat < Config.minLen
  | .rxLen b => Config.minLen ≤ b.toNat
  | .rxData _ => true
  | .rxLast _ => true
  | .setTarget _ => true
  | .start => true
  | .stop => true
  | .fullyOpen => true
  | .fullyClose => true
  | .testOp => true
  | .reservedOp0 => true
  | .reservedOp67 op => 6 ≤ op.toNat
  | .writeIgnored23 idx => idx == 2 || idx == 3
  | .writeIgnored47 idx => 4 ≤ idx.toNat
  | .hostRead _ => true
  | .seqWrite => true
  | .seqPoll => true
  | .cyTop => true
  | .cySample => true
  | .cyAck => true
  | .cyWake => true
  | .osMove => true
  | .osEnd => true
  | .osNext => true
  | .testDone => true

end Sys2Proof
end

