-- ==== Sys2Proof/Decode.lean ====
section
/-! DEFINITION. The Packet Codec (40_codec.md), the decoders of the four formats of opcode_table.json (D34), the
encoder back, and the host's table-word query. -/

namespace Sys2Proof

/-! ### The Packet Codec (R120 to R122) -/

/-- XOR8 (R120). -/
def xor8 (l : List Byte) : Byte := l.foldl (· ^^^ ·) 0

/-- The one error of `encode`, with the rejected payload length (R121, R250, R255). -/
inductive CodecError where
  | payloadTooLarge (n : Nat)
  deriving DecidableEq, Repr

/-- The bytes of a frame before its checksum (R90, R121). -/
def frameBody (command : Byte) (payload : List Byte) : List Byte :=
  Config.startByte :: BitVec.ofNat 8 (4 + payload.length) :: command :: payload

/-- A whole frame, for a payload that fits (R121). -/
def frameBytes (command : Byte) (payload : List Byte) : List Byte :=
  frameBody command payload ++ [xor8 (frameBody command payload)]

/-- `encode` (R121). -/
def codecEncode (command : Byte) (payload : List Byte) : Except CodecError (List Byte) :=
  if Config.maxPayload < payload.length then .error (.payloadTooLarge payload.length)
  else .ok (frameBytes command payload)

/-- `validate` (R122), with the half-open range of 90_conflicts.md C1. A byte the buffer does not hold is none, and
then the comparison is false. -/
def codecValidate (buffer : List Byte) (declaredLength : Nat) : Bool :=
  decide (Config.minLen ≤ declaredLength) && decide (declaredLength ≤ Config.maxLen)
    && buffer[0]? == some Config.startByte
    && (buffer[1]?.map BitVec.toNat) == some declaredLength
    && buffer[declaredLength - 1]? == some (xor8 (buffer.take (declaredLength - 1)))

/-! ### What is decoded -/

/-- Which stream a frame stands in: the format itself has no direction bit (R98), so the request rows apply to
frames the block sends and the reply rows to frames it receives (D34, each row's `direction`; log 9); FRAME's direction
is `either`, so it applies on both sides (log 23). -/
inductive LinkSide where
  | toDevice
  | toBlock
  deriving DecidableEq, Repr

/-- The four formats of D34: a frame, a received byte against the receiver's registers, a host access, the codes of
the block's state registers (with whether `os_rem` is above 0, the condition in the fields of OS_MOVE, OS_END). -/
inductive Code where
  | frame (side : LinkSide) (bytes : List Byte)
  | rxByte (count : Fin 255) (len b : Byte)
  | host (a : HostAccess)
  | step (regState : BitVec 3) (phase seqState : BitVec 2) (remaining : Bool)
  deriving DecidableEq, Repr

/-- Why a code is no operation. -/
inductive DecodeError where
  /-- fewer than 4 or more than 255 bytes (R91). -/
  | badLength
  /-- byte 0 is not START (R90). -/
  | badStart
  /-- byte 1 is not the number of bytes (R90). -/
  | lengthMismatch
  /-- the checksum byte is wrong (R97). -/
  | badChecksum
  /-- a valid frame to the device that is no request of the block: tag 'M', 'F' or 'T' with another LENGTH than
  the request's (R93 to R95). -/
  | notARequest
  /-- no row of the block's steps has these codes (D34). -/
  | noStepEnabled
  deriving DecidableEq, Repr

/-- The logical states between two steps that a byte is decoded against (R21, R105) and its six classes. -/
inductive RxClass where
  | start
  | drop
  | badLen
  | len
  | data
  | last
  deriving DecidableEq, Repr

/-- The selection of R140 (the table of R105). -/
def rxClass (count : Fin 255) (len b : Byte) : RxClass :=
  if count.val = 0 then (if b = Config.startByte then .start else .drop)
  else if count.val = 1 then (if b.toNat < Config.minLen then .badLen else .len)
  else if count.val + 1 < len.toNat then .data
  else .last

/-- The row of a class. -/
def RxClass.instr (b : Byte) : RxClass → Instr
  | .start => .rxStart
  | .drop => .rxDrop b
  | .badLen => .rxBadLen b
  | .len => .rxLen b
  | .data => .rxData b
  | .last => .rxLast b

/-- The row of a valid frame on the stream to the device (R93 to R95). The block never sends a frame of any other tag
(R100), so which row such a frame has there is open: DEDUCED from the direction `either` of the row FRAME in
opcode_table.json, it is FRAME, although the summary of 30_encoding.md lists it as received (log 23). -/
def classifyRequest (command : Byte) (payload : List Byte) : Except DecodeError Instr :=
  if command = Config.tagMotor then
    match payload with
    | [d, s, m] => .ok (.motor d s m)
    | _ => .error .notARequest
  else if command = Config.tagFlow then
    match payload with
    | [] => .ok .flow
    | _ => .error .notARequest
  else if command = Config.tagTest then
    match payload with
    | [] => .ok .test
    | _ => .error .notARequest
  else .ok (.frame command payload)

/-- The row of a valid frame the block receives (R96, R98 to R101). -/
def classifyReply (command : Byte) (payload : List Byte) : Instr :=
  if command = Config.tagMotor then .motorR payload
  else if command = Config.tagFlow then
    match payload with
    | [l, h] => .flowR l h
    | _ => .flowBadLen payload
  else if command = Config.tagTest then .testR payload
  else .frame command payload

/-- The command byte of a frame (R67). -/
def frameCommand (bytes : List Byte) : Byte := bytes.getD 2 0

/-- The payload of a frame: bytes 3 to L - 2 (R67). -/
def framePayload (bytes : List Byte) : List Byte := (bytes.drop 3).take (bytes.length - 4)

/-- The name of what is wrong with bytes that are no valid frame. -/
def frameError (bytes : List Byte) : DecodeError :=
  if bytes.length < Config.minLen ∨ Config.maxLen < bytes.length then .badLength
  else if bytes[0]? ≠ some Config.startByte then .badStart
  else if (bytes[1]?.map BitVec.toNat) ≠ some bytes.length then .lengthMismatch
  else .badChecksum

/-- A frame row applies to a frame that passed `validate` (D34). -/
def decodeFrame (side : LinkSide) (bytes : List Byte) : Except DecodeError Instr :=
  if codecValidate bytes bytes.length then
    match side with
    | .toDevice => classifyRequest (frameCommand bytes) (framePayload bytes)
    | .toBlock => .ok (classifyReply (frameCommand bytes) (framePayload bytes))
  else .error (frameError bytes)

/-- The row of a write to COMMAND: `op = h_wdata[2:0]` (R103). -/
def decodeOp (op : BitVec 3) : Instr :=
  if op = 1 then .start
  else if op = 2 then .stop
  else if op = 3 then .fullyOpen
  else if op = 4 then .fullyClose
  else if op = 5 then .testOp
  else if op = 0 then .reservedOp0
  else .reservedOp67 op

/-- The row of a host access (R33, R72, R103); total, since no host access can fail. -/
def decodeHost (a : HostAccess) : Instr :=
  if a.we then
    if a.idx = 0 then .setTarget a.wdata
    else if a.idx = 1 then decodeOp (a.wdata.extractLsb' 0 3)
    else if a.idx = 2 ∨ a.idx = 3 then .writeIgnored23 a.idx
    else .writeIgnored47 a.idx
  else .hostRead a.idx

/-- The enabled step of the block, by the codes of D34 in the table's order. -/
def decodeStep (regState : BitVec 3) (phase seqState : BitVec 2) (remaining : Bool) :
    Except DecodeError Instr :=
  if seqState = 1 then .ok .seqWrite
  else if seqState = 2 then .ok .seqPoll
  else if regState = 1 ∧ phase = 0 ∧ seqState = 0 then .ok .cyTop
  else if regState = 1 ∧ phase = 1 ∧ seqState = 3 then .ok .cySample
  else if regState = 1 ∧ phase = 2 ∧ seqState = 3 then .ok .cyAck
  else if regState = 1 ∧ phase = 3 ∧ seqState = 0 then .ok .cyWake
  else if (regState = 3 ∨ regState = 4) ∧ phase = 0 ∧ seqState = 0 ∧ remaining = true then .ok .osMove
  else if (regState = 3 ∨ regState = 4) ∧ phase = 0 ∧ seqState = 0 then .ok .osEnd
  else if (regState = 3 ∨ regState = 4) ∧ phase = 2 ∧ seqState = 3 then .ok .osNext
  else if regState = 5 ∧ phase = 2 ∧ seqState = 3 then .ok .testDone
  else .error .noStepEnabled

/-- The decoder: total, rejecting by name. -/
def decode : Code → Except DecodeError Instr
  | .frame side bytes => decodeFrame side bytes
  | .rxByte count len b => .ok ((rxClass count len b).instr b)
  | .host a => .ok (decodeHost a)
  | .step r p q m => decodeStep r p q m

/-! ### The encoder -/

/-- A write of COMMAND with this op code, its ignored bits 0 (R103). -/
def opAccess (op : BitVec 3) : HostAccess := { we := true, idx := 1, wdata := op.setWidth 16 }

/-- The code of a well-formed operation. Where a row leaves state free (a received byte's row, SEQ_WRITE, SEQ_POLL,
the one-shot steps), the code names one state the row applies in. -/
def encode : Instr → Code
  | .motor d s m => .frame .toDevice (frameBytes Config.tagMotor [d, s, m])
  | .flow => .frame .toDevice (frameBytes Config.tagFlow [])
  | .test => .frame .toDevice (frameBytes Config.tagTest [])
  | .flowR l h => .frame .toBlock (frameBytes Config.tagFlow [l, h])
  | .flowBadLen p => .frame .toBlock (frameBytes Config.tagFlow p)
  | .motorR p => .frame .toBlock (frameBytes Config.tagMotor p)
  | .testR p => .frame .toBlock (frameBytes Config.tagTest p)
  | .frame t p => .frame .toBlock (frameBytes t p)
  | .rxStart => .rxByte 0 0 Config.startByte
  | .rxDrop b => .rxByte 0 0 b
  | .rxBadLen b => .rxByte 1 0 b
  | .rxLen b => .rxByte 1 0 b
  | .rxData b => .rxByte 2 4 b
  | .rxLast b => .rxByte 3 4 b
  | .setTarget v => .host { we := true, idx := 0, wdata := v }
  | .start => .host (opAccess 1)
  | .stop => .host (opAccess 2)
  | .fullyOpen => .host (opAccess 3)
  | .fullyClose => .host (opAccess 4)
  | .testOp => .host (opAccess 5)
  | .reservedOp0 => .host (opAccess 0)
  | .reservedOp67 op => .host (opAccess op)
  | .writeIgnored23 idx => .host { we := true, idx := idx, wdata := 0 }
  | .writeIgnored47 idx => .host { we := true, idx := idx, wdata := 0 }
  | .hostRead idx => .host { we := false, idx := idx, wdata := 0 }
  | .seqWrite => .step 5 2 1 false
  | .seqPoll => .step 5 2 2 false
  | .cyTop => .step 1 0 0 false
  | .cySample => .step 1 1 3 false
  | .cyAck => .step 1 2 3 false
  | .cyWake => .step 1 3 0 false
  | .osMove => .step 3 0 0 true
  | .osEnd => .step 3 0 0 false
  | .osNext => .step 3 2 3 false
  | .testDone => .step 5 2 3 false

/-! ### The table-word query (the host's, not the machine's; log 10) -/

/-- The valid frame whose first three bytes are these and whose operand bytes are 0: D34 applies a frame row to a
frame that passed `validate`, so the checksum is the one validation asks for. -/
def headerFrame (len command : Byte) : List Byte :=
  let body := Config.startByte :: len :: command :: List.replicate (len.toNat - 4) 0
  body ++ [xor8 body]

/-- The row of a 24-bit header, byte 0 most significant (D34). A LENGTH of 0 to 3, which no frame has, stands for a
row that leaves LENGTH open, and the least frame is taken; those rows are all received frames. Otherwise the request
rows come before the reply rows, as in the table. -/
def tableFrame (w : Nat) : Option Instr :=
  let start := BitVec.ofNat 8 (w / 65536)
  let len := BitVec.ofNat 8 (w / 256)
  let command := BitVec.ofNat 8 w
  if start ≠ Config.startByte then none
  else if len.toNat < 4 then (decodeFrame .toBlock (headerFrame 4 command)).toOption
  else
    match decodeFrame .toDevice (headerFrame len command) with
    | .ok i => some i
    | .error _ => (decodeFrame .toBlock (headerFrame len command)).toOption

/-- The host row of `h_idx, h_wdata[2:0]` as 6 bits (D34), for a write. -/
def tableHost (w : Nat) : Instr :=
  decodeHost { we := true, idx := BitVec.ofNat 3 (w / 8), wdata := BitVec.ofNat 16 (w % 8) }

/-- The step row of `reg_state, reg_phase, seq_state` as 7 bits (D34), with `os_rem` 0. -/
def tableStep (w : Nat) : Option Instr :=
  (decodeStep (BitVec.ofNat 3 (w / 16)) (BitVec.ofNat 2 (w / 4)) (BitVec.ofNat 2 w) false).toOption

/-- The row of an 8-bit word. Received bytes, host codes and step codes overlap as numbers (D34 tells them apart by
`format`, which the query does not pass on): 0x80 and above is a byte received while Seeking; then a full 7-bit step
code of Running or Test, or SEQ_WRITE's or SEQ_POLL's own word; then a host code; log 10 lists what this shadows. -/
def tableByte (w : Nat) : Option Instr :=
  if 128 ≤ w then some ((rxClass 0 0 (BitVec.ofNat 8 w)).instr (BitVec.ofNat 8 w))
  else if w = 1 ∨ w = 2 ∨ w = 0x10 ∨ w = 0x17 ∨ w = 0x1B ∨ w = 0x1C ∨ 64 ≤ w then tableStep w
  else some (tableHost w)

/-- The operation the decoder reads from a table word (fixed name; log 10). -/
def decodeTableWord (nbits w : Nat) : Option Instr :=
  if nbits = 24 then tableFrame (w % 2 ^ 24)
  else if nbits = 8 then tableByte (w % 2 ^ 8)
  else none

end Sys2Proof
end

