-- ==== Sys2Proof/Machine/State.lean ====
section
/-! DEFINITION. The state of the block (10_state.md), the environment it meets as plain data, the state after reset,
and the reasons an operation can end without a next state. -/

namespace Sys2Proof.Machine

/-- The accumulator as a list of cells in canonical form (`Memory.wf`): indices strictly rising, none holding what an
unlisted cell reads as (`Memory.unlisted`). -/
abbrev Memory := List Host.Cell

/-- `seq_state` (R24). -/
inductive SeqState where
  | free
  | write
  | wait
  | done
  deriving DecidableEq, Repr

/-- `seq_kind` (R24). -/
inductive Kind where
  | motor
  | flow
  | test
  deriving DecidableEq, Repr

/-- `seq_result`, `last_result` (R24, R256). -/
inductive Result where
  | ok
  | invalidDirection
  | noResponse
  | transportError
  | payloadTooLarge
  deriving DecidableEq, Repr

/-- `reg_state` (R27). `stopping` exists only inside CY_TOP (R204). -/
inductive RegState where
  | idle
  | running
  | stopping
  | fullyOpen
  | fullyClose
  | test
  deriving DecidableEq, Repr

/-- `reg_phase` (R27). -/
inductive Phase where
  | top
  | flowTxn
  | motorTxn
  | sleep
  deriving DecidableEq, Repr

/-- The logical states of the receiver (R21). `complete` exists only inside RX_LAST. -/
inductive RxMode where
  | seeking
  | lengthPending
  | accumulating
  | complete
  deriving DecidableEq, Repr

/-- The receiver's registers (R20). `rx_count` ranges over 0 to 254, so no store falls outside the buffer (R61; log 14). -/
structure RxRegs where
  count : Fin 255
  len : Byte
  buf : Memory
  deriving DecidableEq, Repr

/-- The sequencer's registers (R24). -/
structure SeqRegs where
  state : SeqState
  kind : Kind
  frame : List Byte
  polls : Nat
  result : Result
  value : Half
  deriving DecidableEq, Repr

/-- The regulator's registers (R25 to R32). -/
structure RegRegs where
  currentSteps : Nat
  targetFlow : Half
  state : RegState
  phase : Phase
  stopFlag : Bool
  lastSampleTime : Nat
  flowOut : Rat
  flowValid : Bool
  mvDir : Byte
  mvN : Byte
  osRem : Nat
  linkOk : Bool
  testDone : Bool
  lastResult : Result
  deriving DecidableEq, Repr

/-- Whose step comes next: HOST's access, the reset input, or the block's own step (R4, R5, R290; log 1). -/
inductive Turn where
  | host (a : HostAccess)
  | reset
  | block
  deriving DecidableEq, Repr

/-- What a host read returns: an integer register, or FLOW as the rational it holds (R30; RATE_FMT
is read by no rule, R8; log 8). -/
inductive HostData where
  | word (n : Nat)
  | rate (q : Rat)
  deriving DecidableEq, Repr

/-- The MODEL's own fields: the environment as data (R9, R41). Answers given in advance come first; after them the
free functions of Config answer, by the number of the call (logs 1 to 3, 8). `txLog` holds every write with its answer, in order (R63; log 7). -/
structure Io where
  schedule : List Turn
  readAnswers : List ReadAnswer
  reads : Nat
  writeAnswers : List WriteAnswer
  writes : Nat
  times : List Nat
  nows : Nat
  txLog : List LinkWrite
  hRdata : HostData
  deriving DecidableEq, Repr

/-- The whole state: the block's parameters (constant, log 4), its three units' registers, and the environment. -/
structure State where
  cfg : Params
  rx : RxRegs
  seq : SeqRegs
  reg : RegRegs
  io : Io
  deriving DecidableEq, Repr

/-- Why the machine stops. -/
inductive Fault where
  /-- Raised by `step` when the block's turn comes, the block is not quiescent (R292) and no row of its steps is
  enabled. R40 excludes every such state and no run reaches one (log 13). Safe. -/
  | noRuleEnabled
  deriving DecidableEq, Repr

/-- Why an operation has no next state. -/
inductive Refusal where
  /-- Raised by `exec` for an operation that has no meaning yet; no arm raises it now. Safe. -/
  | notModelled (mnemonic : String)
  /-- Raised by a meaning asked for in a state outside its rule's precondition, where the spec gives the operation no
  effect since it does not take place (D34: "enabled by state"; log 12). `step` never raises it. Safe. -/
  | notEnabled
  deriving DecidableEq, Repr

/-- The receiver after reset (R36): empty. The buffer's bytes are unspecified there; DESIGN CHOICE: all read 0 (log 6). -/
def RxRegs.reset : RxRegs := { count := 0, len := 0, buf := [] }

/-- The sequencer after reset (R36). DESIGN CHOICE: kind, frame and value, unspecified there (log 5). -/
def SeqRegs.reset : SeqRegs :=
  { state := .free, kind := .motor, frame := [], polls := 0, result := .ok, value := 0 }

/-- The regulator after reset (R36), for an INIT_STEPS. DESIGN CHOICE: lastSampleTime, mvDir, mvN and osRem,
unspecified there (log 5). -/
def RegRegs.reset (initSteps : Nat) : RegRegs :=
  { currentSteps := initSteps, targetFlow := 0, state := .idle, phase := .top, stopFlag := false,
    lastSampleTime := 0, flowOut := 0, flowValid := false, mvDir := 0, mvN := 0, osRem := 0,
    linkOk := false, testDone := false, lastResult := .ok }

/-- The environment with nothing given in advance and nothing asked yet. DESIGN CHOICE (logs 1 to 3, 8). -/
def Io.reset : Io :=
  { schedule := [], readAnswers := [], reads := 0, writeAnswers := [], writes := 0, times := [], nows := 0,
    txLog := [], hRdata := .word 0 }

/-- The machine right after reset, built with these parameters (R36, R290). -/
def State.resetWith (p : Params) : State :=
  { cfg := p, rx := RxRegs.reset, seq := SeqRegs.reset, reg := RegRegs.reset p.initSteps, io := Io.reset }

/-- The machine right after reset (R36, R290), with the parameters it was built with. -/
def State.reset : State := State.resetWith Config.params

end Sys2Proof.Machine
end

