-- ==== Sys2Proof/Machine/Ops.lean ====
section
/-! DEFINITION. The named operations over the accumulator and the registers, the calls to TRANSPORT and TIMEBASE,
the entry of an error (R259) with the collection of a result beside it (R179), and reset (R290). -/

namespace Sys2Proof.Machine

/-! ### The accumulator (R60 to R62) -/

/-- What a cell that nothing has written reads as. DESIGN CHOICE, unsafe (log 6): the spec leaves it unspecified and
no run reads one (R62). -/
def Memory.unlisted : Byte := 0

/-- The byte at an index. -/
def Memory.read : Memory → Nat → Byte
  | [], _ => Memory.unlisted
  | c :: m, i => if c.1 = i then c.2 else Memory.read m i

/-- `rx_buf[i] <- b`, keeping the canonical form: `rest` with cell i put in front, or left out when it holds the
unlisted value. -/
def Memory.put (i : Nat) (b : Byte) (rest : Memory) : Memory :=
  if b = Memory.unlisted then rest else (i, b) :: rest

/-- `rx_buf[i] <- b` (R61). -/
def Memory.write : Memory → Nat → Byte → Memory
  | [], i, b => Memory.put i b []
  | c :: m, i, b =>
    if i < c.1 then Memory.put i b (c :: m)
    else if i = c.1 then Memory.put i b m
    else c :: Memory.write m i b

/-- `MemRead(addr, n)` (00_scope.md section 7): n bytes from an index. -/
def Memory.readRange (m : Memory) (i n : Nat) : List Byte := (List.range n).map fun k => Memory.read m (i + k)

/-- The canonical form: indices strictly rising and inside the buffer, no cell holding the unlisted value. -/
abbrev Memory.wf (m : Memory) : Prop :=
  m.Pairwise (fun a b => a.1 < b.1) ∧ ∀ c ∈ m, c.1 < 255 ∧ c.2 ≠ Memory.unlisted

/-- `MemWrite(i, 1, b)`. -/
def State.memWrite (s : State) (i : Fin 255) (b : Byte) : State :=
  { s with rx := { s.rx with buf := s.rx.buf.write i.val b } }

/-- `rx_count + 1`, in 8 bits; the rules never apply it above 253 (R126). -/
def rxNext (c : Fin 255) : Fin 255 := Fin.ofNat 255 (c.val + 1)

/-- Reset-to-empty (R22). The buffer's bytes stay. -/
def State.rxEmpty (s : State) : State := { s with rx := { s.rx with count := 0, len := 0 } }

/-- `rx_state` (R21). -/
def RxRegs.mode (r : RxRegs) : RxMode :=
  if r.count.val = 0 then .seeking else if r.count.val = 1 then .lengthPending else .accumulating

/-! ### TRANSPORT and TIMEBASE (R262, R263) -/

/-- `TransportRead()`: one read attempt. An answer, whatever it is, is used up (R66; log 2). -/
def State.transportRead (s : State) : ReadAnswer × State :=
  match s.io.readAnswers with
  | a :: rest => (a, { s with io := { s.io with readAnswers := rest, reads := s.io.reads + 1 } })
  | [] => (Config.readAnswer s.io.reads s.io.txLog, { s with io := { s.io with reads := s.io.reads + 1 } })

/-- The answer to the next write. -/
def State.nextWriteAnswer (s : State) : WriteAnswer :=
  match s.io.writeAnswers with
  | a :: _ => a
  | [] => Config.writeAnswer s.io.writes s.io.txLog

/-- The TX stream: the concatenation of the lists given to successive `TransportWrite()` calls, failed ones too (R63). -/
def Io.txStream (io : Io) : List Byte := io.txLog.flatMap LinkWrite.bytes

/-- The bytes of the writes that TRANSPORT answered ok: what the column "TX stream" of the test vectors shows (V76,
where a failed write adds nothing; log 7). -/
def Io.txAccepted (io : Io) : List Byte := (io.txLog.filter (·.answer = .ok)).flatMap LinkWrite.bytes

/-- `TransportWrite(l)`: the list and its answer are logged, whatever the answer (R63, R172). What of a failed write
reached the link is TRANSPORT's affair (R172), and the log does not say (log 7). -/
def State.transportWrite (s : State) (l : List Byte) : WriteAnswer × State :=
  let a := s.nextWriteAnswer
  (a, { s with io := { s.io with
    writeAnswers := s.io.writeAnswers.tail
    writes := s.io.writes + 1
    txLog := s.io.txLog ++ [⟨l, a⟩] } })

/-- `Now()`: the timebase's value, TIME_W bits (R263; log 3). -/
def State.now (s : State) : Nat × State :=
  match s.io.times with
  | t :: rest => (t % 2 ^ s.cfg.timeW, { s with io := { s.io with times := rest, nows := s.io.nows + 1 } })
  | [] => (Config.timeNow s.io.nows % 2 ^ s.cfg.timeW, { s with io := { s.io with nows := s.io.nows + 1 } })

/-! ### Errors and results -/

/-- The end of a transaction with a result (R173: `seq_result <- r; seq_state <- Done`). -/
def State.finish (s : State) (r : Result) : State := { s with seq := { s.seq with result := r, state := .done } }

/-- TAKING AN EXCEPTION (R259, `raise` of 00_scope.md section 7): set `seq_result` to the code and `seq_state` to
Done; nothing is saved, no mode changes, control goes nowhere. -/
def State.raise (s : State) (e : Result) : State := s.finish e

/-- SEQ_COLLECT (R179), what there is of a return from one (R260): the starter takes the result, `last_result` keeps
the code, the sequencer is free. -/
def State.collect (s : State) : State :=
  { s with reg := { s.reg with lastResult := s.seq.result }, seq := { s.seq with state := .free } }

/-! ### Reset -/

/-- The reset event (R290): every register of the block takes its reset value; what TRANSPORT, TIMEBASE and the host
port hold stays as it was (log 20). -/
def State.blockReset (s : State) : State :=
  { s with rx := RxRegs.reset, seq := SeqRegs.reset, reg := RegRegs.reset s.cfg.initSteps }

/-! ### Outcomes -/

/-- An operation with a precondition: its effect where the precondition holds, else the refusal `notEnabled` (log 12). -/
def whenEnabled (p : Bool) (t : State) : Host.Outcome State Fault Refusal :=
  if p then .next t else .refused .notEnabled

end Sys2Proof.Machine
end

