-- ==== Sys2Proof/Machine/Operands.lean ====
section
/-! DEFINITION. How operands are formed (R102), the requests a transaction carries (R171), the emitted frame (R147),
the codes of the state registers, and the regulator's arithmetic (R205 to R209, R213, R215). -/

namespace Sys2Proof.Machine

/-! ### Frame operands (R102) -/

/-- The byte of a direction (R6). -/
def dirByte : Direction → Byte
  | .forward => Config.dirFwd
  | .backward => Config.dirBwd

/-- Whether a byte is a direction (R102 d). -/
def isDirection (b : Byte) : Bool := b == Config.dirFwd || b == Config.dirBwd

/-- DIR_OPEN (R8). -/
def dirOpen (p : Params) : Byte := dirByte p.dirOpen

/-- DIR_CLOSE (R8). -/
def dirClose (p : Params) : Byte := dirByte p.dirOpen.other

/-- The pulse count of a Flow reply, little-endian (R64, R102 b). -/
def pulseCount (lo hi : Byte) : Half := lo.setWidth 16 + 256 * hi.setWidth 16

/-- The size of a move, steps times multiplier (R102 c). -/
def moveSize (steps multiplier : Byte) : Nat := steps.toNat * multiplier.toNat

/-- An emitted frame (R147). -/
structure Frame where
  command : Byte
  payload : List Byte
  deriving DecidableEq, Repr

/-- What `SEQ_BEGIN` is given (R171). -/
inductive Request where
  | motor (d s m : Byte)
  | flow
  | test
  deriving DecidableEq, Repr

/-- `kind` of a request (R171). -/
def Request.kind : Request → Kind
  | .motor _ _ _ => .motor
  | .flow => .flow
  | .test => .test

/-- `tag(kind)` (R171). -/
def Kind.tag : Kind → Byte
  | .motor => Config.tagMotor
  | .flow => Config.tagFlow
  | .test => Config.tagTest

/-- `payload(kind, args)` (R171). -/
def Request.payload : Request → List Byte
  | .motor d s m => [d, s, m]
  | .flow => []
  | .test => []

/-- Whether the arguments pass the check made before any I/O (R171, R252). -/
def Request.valid : Request → Bool
  | .motor d _ _ => isDirection d
  | .flow => true
  | .test => true

/-- `matches(kind, c, p)` (R174). -/
def Kind.matchesReply (k : Kind) (f : Frame) : Bool :=
  match k with
  | .motor => f.command == Config.tagMotor
  | .flow => f.command == Config.tagFlow && f.payload.length == 2
  | .test => f.command == Config.tagTest

/-! ### The codes of the state registers -/

/-- `reg_state` in STATUS bits 2:0 (R33). -/
def RegState.code : RegState → BitVec 3
  | .idle => 0
  | .running => 1
  | .stopping => 2
  | .fullyOpen => 3
  | .fullyClose => 4
  | .test => 5

/-- `reg_phase` in the opcode table (D34). -/
def Phase.code : Phase → BitVec 2
  | .top => 0
  | .flowTxn => 1
  | .motorTxn => 2
  | .sleep => 3

/-- `seq_state` in the opcode table (D34). -/
def SeqState.code : SeqState → BitVec 2
  | .free => 0
  | .write => 1
  | .wait => 2
  | .done => 3

/-- The result codes (R256). -/
def Result.code : Result → BitVec 3
  | .ok => 0
  | .invalidDirection => 1
  | .noResponse => 2
  | .transportError => 3
  | .payloadTooLarge => 4

/-! ### The regulator's arithmetic (R222) -/

/-- Elapsed ticks: `(t - last) mod 2^TIME_W` (R205). -/
def elapsed (p : Params) (t last : Nat) : Nat := (t + (2 ^ p.timeW - last % 2 ^ p.timeW)) % 2 ^ p.timeW

/-- The rate, exact (R205, R213); 0 where no time has passed. -/
def rate (p : Params) (pulses e : Nat) : Rat :=
  if e = 0 then 0 else (pulses : Rat) * p.cal * (p.tickHz : Rat) / (e : Rat)

/-- The tolerance of a target (R207). -/
def tolerance (p : Params) (target : Nat) : Rat := p.tolFrac * (target : Rat)

/-- The clamped step count of an open correction (R208). -/
def openSteps (p : Params) (current : Nat) : Nat := min Config.stepUnit (p.maxTravel - current)

/-- The clamped step count of a close correction (R209). -/
def closeSteps (current : Nat) : Nat := min Config.stepUnit current

/-- The multiplier of a full move of a one-shot operation (R215). -/
def fullMultiplier (remaining : Nat) : Nat := min (remaining / Config.stepUnit) 255

end Sys2Proof.Machine
end

