-- ==== Sys2Proof/Machine/Flags.lean ====
section
/-! DEFINITION. The flags: the STATUS word and the host's view of the registers (R33), the outputs of R38, and the
comparison of a rate with the band (R207). -/

namespace Sys2Proof.Machine

/-- Where a rate stands against the closed band around the target (R207). -/
inductive Band where
  | below
  | inside
  | above
  deriving DecidableEq, Repr

/-- The comparison (R207): an end of the band is inside. -/
def bandOf (p : Params) (target : Nat) (r : Rat) : Band :=
  if r < (target : Rat) - tolerance p target then .below
  else if (target : Rat) + tolerance p target < r then .above
  else .inside

/-- One bit of STATUS at a place. -/
def flagBit (b : Bool) (i : Nat) : Half := if b then BitVec.ofNat 16 (2 ^ i) else 0

/-- STATUS (R33): 2:0 reg_state, 3 stop_flag, 4 link_ok, 5 test_done, 6 flow_valid, 10:8 last_result, the rest 0. -/
def State.statusWord (s : State) : Half :=
  s.reg.state.code.setWidth 16 ||| flagBit s.reg.stopFlag 3 ||| flagBit s.reg.linkOk 4
    ||| flagBit s.reg.testDone 5 ||| flagBit s.reg.flowValid 6 ||| (s.reg.lastResult.code.setWidth 16 <<< 8)

/-- What a host read of an index returns (R33, R72); FLOW reads as zero while flow_valid is 0. -/
def State.hostRegister (s : State) (idx : BitVec 3) : HostData :=
  if idx = 0 then .word s.reg.targetFlow.toNat
  else if idx = 2 then .word s.statusWord.toNat
  else if idx = 3 then .word s.reg.currentSteps
  else if idx = 4 then .rate (if s.reg.flowValid then s.reg.flowOut else 0)
  else .word 0

/-- The output st_idle (R38). -/
def State.stIdle (s : State) : Bool := s.reg.state == .idle

/-- The output st_running (R38). -/
def State.stRunning (s : State) : Bool := s.reg.state == .running

end Sys2Proof.Machine
end

