-- ==== Sys2Proof/Machine/Transactions.lean ====
section
/-! DEFINITION. The frame rows: the request frames, whose meaning is the begin of their transaction (R93 to R95, R171,
R175 to R177), and the received frames, whose meaning is the hand-over to the wait (R96, R98 to R101, R147, R173,
R174). -/

namespace Sys2Proof.Machine

/-! ### SEQ_BEGIN and the hand-over -/

/-- `SEQ_BEGIN` (R171). -/
def seqBegin (q : Request) (s : State) : State :=
  let s1 := { s with seq := { s.seq with kind := q.kind } }
  if q.valid then
    match codecEncode q.kind.tag q.payload with
    | .ok f => { s1 with seq := { s1.seq with frame := f, state := .write } }
    | .error _ => s1.raise .payloadTooLarge
  else s1.raise .invalidDirection

/-- What the waiting SEQ does with an emitted frame (R173, R174): a matching reply ends the wait with Ok (a Flow reply
leaves its pulse count), any other frame is discarded. -/
def deliver (f : Frame) (s : State) : State :=
  if s.seq.kind.matchesReply f then
    let s1 :=
      if s.seq.kind = .flow then
        { s with seq := { s.seq with value := pulseCount (f.payload.getD 0 0) (f.payload.getD 1 0) } }
      else s
    s1.finish .ok
  else s

/-- The hand-over inside the step that emits (R147). -/
def handOver : State × Option Frame → State
  | (s, some f) => deliver f s
  | (s, none) => s

/-- A transaction begins only when none exists (R171). -/
def beginWhenFree (q : Request) (s : State) : Host.Outcome State Fault Refusal :=
  whenEnabled (s.seq.state == .free) (seqBegin q s)

/-- A frame is emitted only into a wait (R147). -/
def deliverInWait (f : Frame) (s : State) : Host.Outcome State Fault Refusal :=
  whenEnabled (s.seq.state == .wait) (deliver f s)

/-! ### The rows -/

/-- MOTOR (R93, R175): its transaction begins; InvalidDirection for a byte that is no direction, no bytes sent (R252). -/
def execMotor (d st m : Byte) (s : State) : Host.Outcome State Fault Refusal := beginWhenFree (.motor d st m) s

/-- FLOW (R94, R176). -/
def execFlow (s : State) : Host.Outcome State Fault Refusal := beginWhenFree .flow s

/-- TEST (R95, R177). -/
def execTest (s : State) : Host.Outcome State Fault Refusal := beginWhenFree .test s

/-- FLOW.R (R96, R174). -/
def execFlowR (l h : Byte) (s : State) : Host.Outcome State Fault Refusal :=
  deliverInWait ⟨Config.tagFlow, [l, h]⟩ s

/-- FLOW.BADLEN (R101 e): tagged 'F' without a two-byte payload, discarded by every wait. -/
def execFlowBadLen (p : List Byte) (s : State) : Host.Outcome State Fault Refusal :=
  deliverInWait ⟨Config.tagFlow, p⟩ s

/-- MOTOR.R (R98, R174). -/
def execMotorR (p : List Byte) (s : State) : Host.Outcome State Fault Refusal :=
  deliverInWait ⟨Config.tagMotor, p⟩ s

/-- TEST.R (R99, R174). -/
def execTestR (p : List Byte) (s : State) : Host.Outcome State Fault Refusal :=
  deliverInWait ⟨Config.tagTest, p⟩ s

/-- FRAME (R100): any other tag, discarded by every wait. -/
def execFrame (t : Byte) (p : List Byte) (s : State) : Host.Outcome State Fault Refusal :=
  deliverInWait ⟨t, p⟩ s

end Sys2Proof.Machine
end

