-- ==== Sys2Proof/Machine/HostPort.lean ====
section
/-! DEFINITION. The host operations (R201 to R203, R214, R217, R219, R220) and the other accesses of the host port
(R33, R72). None can fail (R72). -/

namespace Sys2Proof.Machine

/-- SET_TARGET (R201). -/
def execSetTarget (v : Half) (s : State) : Host.Outcome State Fault Refusal :=
  .next { s with reg := { s.reg with targetFlow := v } }

/-- The effect of START (R202). -/
def startOp (s : State) : State :=
  if s.reg.state = .idle ∧ 0 < s.reg.targetFlow.toNat then
    let r := s.now
    { r.2 with reg := { s.reg with
      state := .running, phase := .top, stopFlag := false, lastSampleTime := r.1 } }
  else s

/-- START (R202). -/
def execStart (s : State) : Host.Outcome State Fault Refusal := .next (startOp s)

/-- STOP (R203). -/
def execStop (s : State) : Host.Outcome State Fault Refusal :=
  .next (if s.reg.state = .running then { s with reg := { s.reg with stopFlag := true } } else s)

/-- FULLY_OPEN (R214). -/
def execFullyOpen (s : State) : Host.Outcome State Fault Refusal :=
  .next (if s.reg.state = .idle then
    { s with reg := { s.reg with
      state := .fullyOpen, phase := .top, osRem := s.cfg.maxTravel - s.reg.currentSteps } }
  else s)

/-- FULLY_CLOSE (R217). -/
def execFullyClose (s : State) : Host.Outcome State Fault Refusal :=
  .next (if s.reg.state = .idle then
    { s with reg := { s.reg with state := .fullyClose, phase := .top, osRem := s.reg.currentSteps } }
  else s)

/-- TEST_OP (R219). -/
def execTestOp (s : State) : Host.Outcome State Fault Refusal :=
  .next (if s.reg.state = .idle then
    seqBegin .test { s with reg := { s.reg with state := .test, phase := .motorTxn, testDone := false } }
  else s)

/-- RESERVED_OP0 (R103, R220): ignored. -/
def execReservedOp0 (s : State) : Host.Outcome State Fault Refusal := .next s

/-- RESERVED_OP6_7 (R103, R220): ignored. -/
def execReservedOp67 (_op : BitVec 3) (s : State) : Host.Outcome State Fault Refusal := .next s

/-- WRITE_IGNORED_2_3 (R33): STATUS and POSITION are read-only. -/
def execWriteIgnored23 (_idx : BitVec 3) (s : State) : Host.Outcome State Fault Refusal := .next s

/-- WRITE_IGNORED_4_7 (R33, R72): FLOW is read-only, indices 5 to 7 are undefined. -/
def execWriteIgnored47 (_idx : BitVec 3) (s : State) : Host.Outcome State Fault Refusal := .next s

/-- HOST_READ (R72): the port shows the register; no register changes (R66). -/
def execHostRead (idx : BitVec 3) (s : State) : Host.Outcome State Fault Refusal :=
  .next { s with io := { s.io with hRdata := s.hostRegister idx } }

end Sys2Proof.Machine
end

