-- ==== Sys2Proof/Machine/Receiver.lean ====
section
/-! DEFINITION. The frame receiver (41_receiver.md): the six byte classes, the driving step RX_BYTE (R140), and a
whole stream fed byte by byte. -/

namespace Sys2Proof.Machine

/-! ### The effects of the six classes -/

/-- R141. -/
def rxStartOp (s : State) : State :=
  let s1 := s.memWrite 0 Config.startByte
  { s1 with rx := { s1.rx with count := 1 } }

/-- R142: the byte is discarded. -/
def rxDropOp (_b : Byte) (s : State) : State := s

/-- R143: the byte is stored, and the capture discarded in the same step. -/
def rxBadLenOp (b : Byte) (s : State) : State := (s.memWrite 1 b).rxEmpty

/-- R144. -/
def rxLenOp (b : Byte) (s : State) : State :=
  let s1 := s.memWrite 1 b
  { s1 with rx := { s1.rx with len := b, count := 2 } }

/-- R145. -/
def rxDataOp (b : Byte) (s : State) : State :=
  let s1 := s.memWrite s.rx.count b
  { s1 with rx := { s1.rx with count := rxNext s.rx.count } }

/-- R146: the byte completes the capture, which is emitted when it validates; either way the receiver is empty. -/
def rxLastOp (b : Byte) (s : State) : State × Option Frame :=
  let s1 := s.memWrite s.rx.count b
  let l := s.rx.len.toNat
  if codecValidate (s1.rx.buf.readRange 0 l) l then
    (s1.rxEmpty, some ⟨s1.rx.buf.read 2, s1.rx.buf.readRange 3 (l - 4)⟩)
  else (s1.rxEmpty, none)

/-- `RX_BYTE(b)` (R140). -/
def rxByte (b : Byte) (s : State) : State × Option Frame :=
  match rxClass s.rx.count s.rx.len b with
  | .start => (rxStartOp s, none)
  | .drop => (rxDropOp b s, none)
  | .badLen => (rxBadLenOp b s, none)
  | .len => (rxLenOp b s, none)
  | .data => (rxDataOp b s, none)
  | .last => rxLastOp b s

/-- A stream of bytes fed to the receiver, with the frames it emits, in order (R68 item 1). -/
def rxFeed : List Byte → State → State × List Frame
  | [], s => (s, [])
  | b :: rest, s =>
    let r := rxByte b s
    let r' := rxFeed rest r.1
    (r'.1, r.2.toList ++ r'.2)

/-! ### The rows: a class applies in a wait (R140), to the bytes and the state of its rule -/

/-- Whether the receiver, inside a wait, decodes this byte to this class. -/
def rxEnabled (c : RxClass) (b : Byte) (s : State) : Bool :=
  s.seq.state == .wait && rxClass s.rx.count s.rx.len b == c

/-- RX_START (R141). -/
def execRxStart (s : State) : Host.Outcome State Fault Refusal :=
  whenEnabled (rxEnabled .start Config.startByte s) (rxStartOp s)

/-- RX_DROP (R142). -/
def execRxDrop (b : Byte) (s : State) : Host.Outcome State Fault Refusal :=
  whenEnabled (rxEnabled .drop b s) (rxDropOp b s)

/-- RX_BADLEN (R143). -/
def execRxBadLen (b : Byte) (s : State) : Host.Outcome State Fault Refusal :=
  whenEnabled (rxEnabled .badLen b s) (rxBadLenOp b s)

/-- RX_LEN (R144). -/
def execRxLen (b : Byte) (s : State) : Host.Outcome State Fault Refusal :=
  whenEnabled (rxEnabled .len b s) (rxLenOp b s)

/-- RX_DATA (R145). -/
def execRxData (b : Byte) (s : State) : Host.Outcome State Fault Refusal :=
  whenEnabled (rxEnabled .data b s) (rxDataOp b s)

/-- RX_LAST (R146), with the hand-over of the frame to the wait in the same step (R147). -/
def execRxLast (b : Byte) (s : State) : Host.Outcome State Fault Refusal :=
  whenEnabled (rxEnabled .last b s) (handOver (rxLastOp b s))

end Sys2Proof.Machine
end

