-- ==== Sys2Proof/Machine/Regulator.lean ====
section
/-! DEFINITION. The regulator's own steps (43_regulator.md): the Running cycle, the one-shot operations, TEST_DONE.
Each is enabled by the state registers as its row of the table says (D34). -/

namespace Sys2Proof.Machine

/-- Whether the state registers hold these values. -/
def regAt (r : RegState) (p : Phase) (q : SeqState) (s : State) : Bool :=
  s.reg.state == r && s.reg.phase == p && s.seq.state == q

/-- Whether a one-shot operation is in progress (R27). -/
def inOneShot (s : State) : Bool := s.reg.state == .fullyOpen || s.reg.state == .fullyClose

/-- A change of `reg_phase`. -/
def State.toPhase (s : State) (p : Phase) : State := { s with reg := { s.reg with phase := p } }

/-! ### The Running cycle -/

/-- The effect of CY_TOP (R204). Stopping is passed through inside the step. -/
def cyTopOp (s : State) : State :=
  if s.reg.stopFlag then
    let s1 := { s with reg := { s.reg with state := .stopping } }
    let s2 := { s1 with reg := { s1.reg with stopFlag := false } }
    { s2 with reg := { s2.reg with state := .idle } }
  else (seqBegin .flow s).toPhase .flowTxn

/-- CY_TOP (R204). -/
def execCyTop (s : State) : Host.Outcome State Fault Refusal :=
  whenEnabled (regAt .running .top .free s) (cyTopOp s)

/-- The correction a rate asks for: direction and clamped step count, none when there is nothing to move (R207 to R209). -/
def correction (p : Params) (target current : Nat) (r : Rat) : Option (Byte × Nat) :=
  match bandOf p target r with
  | .below => if openSteps p current = 0 then none else some (dirOpen p, openSteps p current)
  | .above => if closeSteps current = 0 then none else some (dirClose p, closeSteps current)
  | .inside => none

/-- A correction begun (R205): the move registers and the Motor transaction at multiplier 1. -/
def beginMove (dir : Byte) (n : Nat) (s : State) : State :=
  let s1 := { s with reg := { s.reg with mvDir := dir, mvN := BitVec.ofNat 8 n } }
  (seqBegin (.motor dir (BitVec.ofNat 8 n) (BitVec.ofNat 8 Config.stepMult)) s1).toPhase .motorTxn

/-- A successful sample (R205, R206): the time is read, the rate published. -/
def publish (s : State) : State :=
  let r := s.now
  { r.2 with reg := { s.reg with
    lastSampleTime := r.1
    flowOut := rate s.cfg s.seq.value.toNat (elapsed s.cfg r.1 s.reg.lastSampleTime)
    flowValid := true } }

/-- The effect of CY_SAMPLE (R205, R211). -/
def cySampleOp (s : State) : State :=
  let s1 := s.collect
  if s.seq.result = .ok then
    let s2 := publish s1
    match correction s.cfg s.reg.targetFlow.toNat s.reg.currentSteps s2.reg.flowOut with
    | none => s2.toPhase .sleep
    | some (dir, n) => beginMove dir n s2
  else s1.toPhase .sleep

/-- CY_SAMPLE (R205). -/
def execCySample (s : State) : Host.Outcome State Fault Refusal :=
  whenEnabled (regAt .running .flowTxn .done s) (cySampleOp s)

/-- The position after an acknowledged move (R210). -/
def movedSteps (p : Params) (r : RegRegs) : Nat :=
  if r.mvDir = dirOpen p then r.currentSteps + r.mvN.toNat else r.currentSteps - r.mvN.toNat

/-- The effect of CY_ACK (R210, R211). -/
def cyAckOp (s : State) : State :=
  let s1 := s.collect
  let s2 :=
    if s.seq.result = .ok then { s1 with reg := { s1.reg with currentSteps := movedSteps s.cfg s1.reg } }
    else s1
  s2.toPhase .sleep

/-- CY_ACK (R210). -/
def execCyAck (s : State) : Host.Outcome State Fault Refusal :=
  whenEnabled (regAt .running .motorTxn .done s) (cyAckOp s)

/-- CY_WAKE (R212). -/
def execCyWake (s : State) : Host.Outcome State Fault Refusal :=
  whenEnabled (regAt .running .sleep .free s) (s.toPhase .top)

/-! ### The one-shot operations -/

/-- The direction of a one-shot operation's moves (R215). -/
def oneShotDir (s : State) : Byte := if s.reg.state = .fullyOpen then dirOpen s.cfg else dirClose s.cfg

/-- The bound a one-shot operation ends at (R216). -/
def oneShotBound (s : State) : Nat := if s.reg.state = .fullyOpen then s.cfg.maxTravel else 0

/-- The next move of a one-shot operation, for a distance above 0: step count and multiplier (R215). -/
def oneShotMove (remaining : Nat) : Nat × Nat :=
  if Config.stepUnit ≤ remaining then (Config.stepUnit, fullMultiplier remaining) else (remaining, 1)

/-- The moves a one-shot operation sends for a distance (R218), with fuel for at least as many moves. -/
def oneShotPlan : Nat → Nat → List (Nat × Nat)
  | 0, _ => []
  | fuel + 1, remaining =>
    if remaining = 0 then []
    else
      let mv := oneShotMove remaining
      mv :: oneShotPlan fuel (remaining - mv.1 * mv.2)

/-- The effect of OS_MOVE (R215). -/
def osMoveOp (s : State) : State :=
  let mv := oneShotMove s.reg.osRem
  let s1 := seqBegin (.motor (oneShotDir s) (BitVec.ofNat 8 mv.1) (BitVec.ofNat 8 mv.2)) s
  { s1 with reg := { s1.reg with osRem := s.reg.osRem - mv.1 * mv.2, phase := .motorTxn } }

/-- Whether a one-shot operation stands before its next move. -/
def oneShotTop (s : State) : Bool := inOneShot s && s.reg.phase == .top && s.seq.state == .free

/-- OS_MOVE (R215). -/
def execOsMove (s : State) : Host.Outcome State Fault Refusal :=
  whenEnabled (oneShotTop s && decide (0 < s.reg.osRem)) (osMoveOp s)

/-- OS_END (R216). -/
def execOsEnd (s : State) : Host.Outcome State Fault Refusal :=
  whenEnabled (oneShotTop s && s.reg.osRem == 0)
    { s with reg := { s.reg with currentSteps := oneShotBound s, state := .idle } }

/-- OS_NEXT (R223). -/
def execOsNext (s : State) : Host.Outcome State Fault Refusal :=
  whenEnabled (inOneShot s && s.reg.phase == .motorTxn && s.seq.state == .done) (s.collect.toPhase .top)

/-! ### The connectivity test -/

/-- The effect of TEST_DONE (R219). -/
def testDoneOp (s : State) : State :=
  let s1 := s.collect
  { s1 with reg := { s1.reg with
    linkOk := s.seq.result == .ok, testDone := true, state := .idle, phase := .top } }

/-- TEST_DONE (R219). -/
def execTestDone (s : State) : Host.Outcome State Fault Refusal :=
  whenEnabled (regAt .test .motorTxn .done s) (testDoneOp s)

end Sys2Proof.Machine
end

