-- ==== Sys2Proof/Machine/Sequencer.lean ====
section
/-! DEFINITION. The sequencer (42_command_layer.md): the steps SEQ_WRITE and SEQ_POLL, and the three commands of the
source as functions that run a whole transaction. SEQ_BEGIN and the hand-over are in Transactions.lean. -/

namespace Sys2Proof.Machine

/-- The effect of SEQ_WRITE (R172). -/
def seqWriteOp (s : State) : State :=
  match s.transportWrite s.seq.frame with
  | (.error, s1) => s1.raise .transportError
  | (.ok, s1) =>
    let s2 := { s1 with seq := { s1.seq with polls := 0, state := .wait } }
    if s.cfg.rxClearOnWait then s2.rxEmpty else s2

/-- SEQ_WRITE (R172). -/
def execSeqWrite (s : State) : Host.Outcome State Fault Refusal :=
  whenEnabled (s.seq.state == .write) (seqWriteOp s)

/-- The effect of SEQ_POLL (R173): the budget first, then one read attempt, and on a byte the receiver's step with
the hand-over of what it emits. -/
def seqPollOp (s : State) : State :=
  if s.cfg.maxPolls ≤ s.seq.polls then s.raise .noResponse
  else
    let s1 := { s with seq := { s.seq with polls := s.seq.polls + 1 } }
    match s1.transportRead with
    | (.error, s2) => s2.raise .transportError
    | (.noData, s2) => s2
    | (.byte b, s2) => handOver (rxByte b s2)

/-- SEQ_POLL (R173). -/
def execSeqPoll (s : State) : Host.Outcome State Fault Refusal :=
  whenEnabled (s.seq.state == .wait) (seqPollOp s)

/-! ### The three commands as functions (R175 to R177) -/

/-- One SEQ step of the transaction in progress, if there is one. -/
def seqStep (s : State) : State :=
  match s.seq.state with
  | .write => seqWriteOp s
  | .wait => seqPollOp s
  | .free => s
  | .done => s

/-- SEQ steps one after another, no other agent between them. -/
def seqRun : Nat → State → State
  | 0, s => s
  | n + 1, s => seqRun n (seqStep s)

/-- A whole transaction (R170): SEQ_BEGIN, SEQ_WRITE, then SEQ_POLL until Done, which takes at most MAX_POLLS + 1 of
them (R180). -/
def transaction (q : Request) (s : State) : State := seqRun (s.cfg.maxPolls + 2) (seqBegin q s)

/-- `send_motor` (R175). -/
def sendMotor (direction steps multiplier : Byte) (s : State) : Result × State :=
  let t := transaction (.motor direction steps multiplier) s
  (t.seq.result, t)

/-- `request_flow` (R176): the pulse count where it succeeded. -/
def requestFlow (s : State) : Except Result Half × State :=
  let t := transaction .flow s
  (if t.seq.result = .ok then .ok t.seq.value else .error t.seq.result, t)

/-- `connectivity_test` (R177). -/
def connectivityTest (s : State) : Bool × State :=
  let t := transaction .test s
  (t.seq.result == .ok, t)

end Sys2Proof.Machine
end

