-- ==== Sys2Proof/Machine/Dispatch.lean ====
section
/-! DEFINITION. One arm for each row of opcode_table.json, in the table's order. -/

namespace Sys2Proof.Machine

def exec (i : Instr) (s : State) : Host.Outcome State Fault Refusal :=
  match i with
  | .motor d st m => Sys2Proof.Machine.execMotor d st m s
  | .flow => Sys2Proof.Machine.execFlow s
  | .test => Sys2Proof.Machine.execTest s
  | .flowR l h => Sys2Proof.Machine.execFlowR l h s
  | .flowBadLen p => Sys2Proof.Machine.execFlowBadLen p s
  | .motorR p => Sys2Proof.Machine.execMotorR p s
  | .testR p => Sys2Proof.Machine.execTestR p s
  | .frame t p => Sys2Proof.Machine.execFrame t p s
  | .rxStart => Sys2Proof.Machine.execRxStart s
  | .rxDrop b => Sys2Proof.Machine.execRxDrop b s
  | .rxBadLen b => Sys2Proof.Machine.execRxBadLen b s
  | .rxLen b => Sys2Proof.Machine.execRxLen b s
  | .rxData b => Sys2Proof.Machine.execRxData b s
  | .rxLast b => Sys2Proof.Machine.execRxLast b s
  | .setTarget v => Sys2Proof.Machine.execSetTarget v s
  | .start => Sys2Proof.Machine.execStart s
  | .stop => Sys2Proof.Machine.execStop s
  | .fullyOpen => Sys2Proof.Machine.execFullyOpen s
  | .fullyClose => Sys2Proof.Machine.execFullyClose s
  | .testOp => Sys2Proof.Machine.execTestOp s
  | .reservedOp0 => Sys2Proof.Machine.execReservedOp0 s
  | .reservedOp67 op => Sys2Proof.Machine.execReservedOp67 op s
  | .writeIgnored23 idx => Sys2Proof.Machine.execWriteIgnored23 idx s
  | .writeIgnored47 idx => Sys2Proof.Machine.execWriteIgnored47 idx s
  | .hostRead idx => Sys2Proof.Machine.execHostRead idx s
  | .seqWrite => Sys2Proof.Machine.execSeqWrite s
  | .seqPoll => Sys2Proof.Machine.execSeqPoll s
  | .cyTop => Sys2Proof.Machine.execCyTop s
  | .cySample => Sys2Proof.Machine.execCySample s
  | .cyAck => Sys2Proof.Machine.execCyAck s
  | .cyWake => Sys2Proof.Machine.execCyWake s
  | .osMove => Sys2Proof.Machine.execOsMove s
  | .osEnd => Sys2Proof.Machine.execOsEnd s
  | .osNext => Sys2Proof.Machine.execOsNext s
  | .testDone => Sys2Proof.Machine.execTestDone s

end Sys2Proof.Machine
end

