-- ==== Sys2Proof/Machine/Fetch.lean ====
section
/-! DEFINITION. What `step` runs next: whose turn it is (R4, R5, R9), what the decoder makes of it, and the placing of
a given operation as the very next one (log 11). -/

namespace Sys2Proof.Machine

/-- The next turn, taken off the schedule; with nothing scheduled it is the block's (R309; log 1). -/
def takeTurn (s : State) : Turn × State :=
  match s.io.schedule with
  | t :: rest => (t, { s with io := { s.io with schedule := rest } })
  | [] => (.block, s)

/-- The codes of the block's state registers (D34). -/
def stepCode (s : State) : Code :=
  .step s.reg.state.code s.reg.phase.code s.seq.state.code (decide (0 < s.reg.osRem))

/-- Quiescent (R292): no block step is enabled and only HOST can start anything. -/
def quiescent (s : State) : Bool := s.reg.state == .idle && s.seq.state == .free

/-- What a turn comes to. -/
inductive Pick where
  /-- an operation runs. -/
  | run (i : Instr)
  /-- the reset event. -/
  | reset
  /-- the block's turn while it is quiescent: nothing happens. -/
  | rest
  /-- the block's turn in a state R40 excludes, with no rule enabled (log 13). -/
  | stuck
  deriving DecidableEq, Repr

/-- The operation of a turn, as the decoder reads it. -/
def pick (t : Turn) (s : State) : Pick :=
  match t with
  | .host a =>
    match decode (.host a) with
    | .ok i => .run i
    | .error _ => .stuck
  | .reset => .reset
  | .block =>
    match decode (stepCode s) with
    | .ok i => .run i
    | .error _ => if quiescent s then .rest else .stuck

/-! ### Placing an operation (log 11) -/

/-- `reg_state` of a code (R33); 6 and 7 are never read and stand for nothing. -/
def RegState.ofCode (c : BitVec 3) : RegState :=
  if c = 1 then .running else if c = 2 then .stopping else if c = 3 then .fullyOpen
  else if c = 4 then .fullyClose else if c = 5 then .test else .idle

/-- `reg_phase` of a code (D34). -/
def Phase.ofCode (c : BitVec 2) : Phase :=
  if c = 1 then .flowTxn else if c = 2 then .motorTxn else if c = 3 then .sleep else .top

/-- `seq_state` of a code (D34). -/
def SeqState.ofCode (c : BitVec 2) : SeqState :=
  if c = 1 then .write else if c = 2 then .wait else if c = 3 then .done else .free

/-- The turn put in front of the schedule. -/
def State.turnFirst (s : State) (t : Turn) : State :=
  { s with io := { s.io with schedule := t :: s.io.schedule } }

/-- The regulator and the sequencer at these places. -/
def State.placeAt (s : State) (r : RegState) (p : Phase) (q : SeqState) : State :=
  { s with reg := { s.reg with state := r, phase := p }, seq := { s.seq with state := q } }

/-- The kind of transaction in which a frame with this tag is the expected one; Motor for any other tag. -/
def kindOfTag (t : Byte) : Kind :=
  if t = Config.tagFlow then .flow else if t = Config.tagTest then .test else .motor

/-- A wait of this kind with at least one poll left, where the next read answers this byte. -/
def State.placeWait (s : State) (k : Kind) (b : Byte) : State :=
  let s1 : State := match k with
    | .motor => s.placeAt .fullyOpen .motorTxn .wait
    | .flow => s.placeAt .running .flowTxn .wait
    | .test => s.placeAt .test .motorTxn .wait
  { s1 with
    cfg := { s1.cfg with maxPolls := s1.cfg.maxPolls + 1 }
    seq := { s1.seq with kind := k, polls := 0 }
    io := { s1.io with readAnswers := .byte b :: s1.io.readAnswers } }

/-- The receiver in a capture of this length, with these bytes stored from index 0. -/
def State.placeCapture (s : State) (len : Byte) (bytes : List Byte) : State :=
  { s with rx :=
    { count := Fin.ofNat 255 bytes.length
      len := len
      buf := (bytes.zipIdx).foldl (fun m c => m.write c.2 c.1) [] } }

/-- A frame on the link (D34). A received frame: all but its last byte in the accumulator, the last one the next byte
the wait reads. A request: FLOW and TEST begun by the very next step (CY_TOP, TEST_OP); MOTOR standing in `seq_frame`,
written by the very next step, since REG begins none with arbitrary operands. -/
def placeFrame (side : LinkSide) (bytes : List Byte) (s : State) : State :=
  match side with
  | .toBlock =>
    ((s.placeCapture (BitVec.ofNat 8 bytes.length) bytes.dropLast).placeWait
      (kindOfTag (frameCommand bytes)) (bytes.getLast?.getD 0)).turnFirst .block
  | .toDevice =>
    match kindOfTag (frameCommand bytes) with
    | .flow =>
      let s1 := s.placeAt .running .top .free
      { s1 with reg := { s1.reg with stopFlag := false } }.turnFirst .block
    | .test => (s.placeAt .idle .top .free).turnFirst (.host (opAccess 5))
    | .motor =>
      let s1 := s.placeAt .fullyOpen .motorTxn .write
      { s1 with seq := { s1.seq with kind := .motor, frame := bytes } }.turnFirst .block

/-- The state in which the very next step runs the operation of this code. -/
def placeCode (c : Code) (s : State) : State :=
  match c with
  | .frame side bytes => placeFrame side bytes s
  | .rxByte count len b =>
    ((s.placeCapture len (([Config.startByte, len] ++ List.replicate count.val 0).take count.val)).placeWait
      .test b).turnFirst .block
  | .host a => s.turnFirst (.host a)
  | .step r p q remaining =>
    let s1 := s.placeAt (RegState.ofCode r) (Phase.ofCode p) (SeqState.ofCode q)
    { s1 with reg := { s1.reg with
      osRem := if remaining then (if s1.reg.osRem = 0 then 1 else s1.reg.osRem)
               else if q = 0 ∧ p = 0 then 0 else s1.reg.osRem } }.turnFirst .block

/-- The state in which the very next step runs the operation of this table word; unchanged where there is none. -/
def placeWord (nbits w : Nat) (s : State) : State :=
  match decodeTableWord nbits w with
  | some i => placeCode (encode i) s
  | none => s

end Sys2Proof.Machine
end

