-- ==== Sys2Proof/Machine/Step.lean ====
section
/-! DEFINITION. One step of the machine: the next turn is taken, and the operation the decoder reads for it runs. -/

namespace Sys2Proof.Machine

/-- One atomic step (R5): of HOST, of the reset input, or of the block (R35: which one, its state registers say). -/
def step (s : State) : Host.Outcome State Fault Refusal :=
  let f := takeTurn s
  match pick f.1 f.2 with
  | .run i => exec i f.2
  | .reset => .next f.2.blockReset
  | .rest => .next f.2
  | .stuck => .fault .noRuleEnabled

/-- The state in which the next step runs the operation of a table word (log 11). -/
def State.withFetchWord (s : State) (nbits w : Nat) : State := placeWord nbits w s

end Sys2Proof.Machine
end

