-- ==== Sys2Proof/Safety.lean ====
section
/-! DEFINITION. What holds between steps: the invariants of R40 with the facts that carry them (R24, R29 to R31, R200),
as one predicate on states, and what a step may end in. -/

namespace Sys2Proof.Machine

/-- R40 item 2 (with the buffer's canonical form). -/
structure RxInv (r : RxRegs) : Prop where
  seeking : r.count.val = 0 → r.len = 0
  pending : r.count.val = 1 → r.len = 0 ∧ r.buf.read 0 = Config.startByte
  accumulating : 2 ≤ r.count.val → 4 ≤ r.len.toNat ∧ r.count.val < r.len.toNat
    ∧ r.buf.read 0 = Config.startByte ∧ r.buf.read 1 = r.len
  canonical : r.buf.wf

/-- R40 item 5, with R24's form of the request and R252, R255: no run of the block ends in the two codes. -/
structure SeqInv (cfg : Params) (q : SeqRegs) : Prop where
  polls_le : q.polls ≤ cfg.maxPolls
  request : q.state = .write → codecValidate q.frame q.frame.length = true
    ∧ (q.frame.length = 4 ∨ q.frame.length = 7)
  result : q.result ≠ .invalidDirection ∧ q.result ≠ .payloadTooLarge

/-- The pairs of `reg_state`, `reg_phase` that R200's table names: R40 items 6 and 7 among them. -/
def legalPlace : RegState → Phase → Prop
  | .idle, p => p = .top
  | .running, _ => True
  | .stopping, _ => False
  | .fullyOpen, p => p = .top ∨ p = .motorTxn
  | .fullyClose, p => p = .top ∨ p = .motorTxn
  | .test, p => p = .motorTxn

/-- R40 item 1 with the registers of R29 to R31 inside their ranges. -/
structure RegInv (cfg : Params) (r : RegRegs) : Prop where
  position : r.currentSteps ≤ cfg.maxTravel
  remaining : r.osRem ≤ cfg.maxTravel
  place : legalPlace r.state r.phase
  move : r.state = .running → r.phase = .motorTxn →
    (r.mvDir = dirOpen cfg ∧ r.currentSteps + r.mvN.toNat ≤ cfg.maxTravel)
      ∨ (r.mvDir = dirClose cfg ∧ r.mvN.toNat ≤ r.currentSteps)
  sampleTime : r.lastSampleTime < 2 ^ cfg.timeW
  flow : 0 ≤ r.flowOut ∧ (r.flowValid = false → r.flowOut = 0)
  lastResult : r.lastResult ≠ .invalidDirection ∧ r.lastResult ≠ .payloadTooLarge

/-- What holds after reset and after every step (R40). -/
structure Inv (s : State) : Prop where
  rx : RxInv s.rx
  seq : SeqInv s.cfg s.seq
  reg : RegInv s.cfg s.reg
  /-- R40 item 4. -/
  busy : (s.reg.phase = .flowTxn ∨ s.reg.phase = .motorTxn) ↔ s.seq.state ≠ .free

/-- A step that ends in a next state. -/
def stepsOn (s : State) : Prop := ∃ t, step s = .next t

end Sys2Proof.Machine
end

