-- ==== Sys2Proof/Certificates/Slice0/Obligations.lean ====
section
/-! DEFINITION. The statements for the provers. Each docstring names the rule it formalises. -/

open Sys2Proof Sys2Proof.Machine

/-! ### The Packet Codec -/

/-- R121: `encode` lays out START, LENGTH, COMMAND, the payload and the XOR of all bytes before the last, and rejects a
payload above 251 bytes with its length. -/
def Obligations.EncodeLaysOutTheFrame : Prop :=
  ∀ (c : Byte) (p : List Byte),
    (p.length ≤ 251 → ∃ f, codecEncode c p = .ok f ∧ f.length = 4 + p.length ∧ f[0]? = some 0xAA
      ∧ f[1]?.map BitVec.toNat = some (4 + p.length) ∧ f[2]? = some c ∧ (f.drop 3).take p.length = p
      ∧ f.getLast? = some (xor8 f.dropLast))
    ∧ (251 < p.length → codecEncode c p = .error (.payloadTooLarge p.length))

/-- R123: every encoded frame validates with its length. -/
def Obligations.EncodedFrameValidates : Prop :=
  ∀ (c : Byte) (p : List Byte), p.length ≤ 251 →
    ∃ f, codecEncode c p = .ok f ∧ codecValidate f (4 + p.length) = true

/-- R122's equivalent form: the last condition of `validate` says that the XOR of all L bytes is 0. -/
def Obligations.ValidateAsZeroXor : Prop :=
  ∀ (buf : List Byte) (n : Nat), n ≤ buf.length →
    (codecValidate buf n = true ↔
      4 ≤ n ∧ n ≤ 255 ∧ buf[0]? = some 0xAA ∧ buf[1]?.map BitVec.toNat = some n ∧ xor8 (buf.take n) = 0)

/-- R124: one inverted bit is always detected; flips that invert each bit position an even number of times among
bytes 2 to L - 1 never are. -/
def Obligations.SingleFlipDetectedEvenFlipsNot : Prop :=
  ∀ (c : Byte) (p f : List Byte), p.length ≤ 251 → codecEncode c p = .ok f →
    (∀ (i : Nat) (b : Byte) (k : Fin 8), f[i]? = some b →
      codecValidate (f.set i (b ^^^ BitVec.twoPow 8 k.val)) f.length = false)
    ∧ (∀ g : List Byte, g.length = f.length → g[0]? = f[0]? → g[1]? = f[1]? →
      xor8 (List.zipWith (· ^^^ ·) f g) = 0 → codecValidate g f.length = true)

/-! ### Encodings -/

/-- D34, R90 to R105: decoding the code of a well-formed operation gives it back, for every row and every operand. -/
def Obligations.DecodeEncodeRoundTrip : Prop :=
  ∀ i : Instr, i.wellFormed = true → decode (encode i) = .ok i

/-- The decoder answers well-formed operations only, so every code it accepts has an encoding. -/
def Obligations.DecodedIsWellFormed : Prop :=
  ∀ (c : Code) (i : Instr), decode c = .ok i → i.wellFormed = true

/-- Words written out from the spec's encodings (R93 to R96, V20 to V33, R103, D34) decode to their operations. -/
def Obligations.WrittenOutWordsDecode : Prop :=
  decode (.frame .toDevice [0xAA, 0x07, 0x4D, 0x46, 0xC8, 0x0A, 0x64]) = .ok (.motor 0x46 200 10)
    ∧ decode (.frame .toBlock [0xAA, 0x06, 0x46, 0x34, 0x12, 0xCC]) = .ok (.flowR 0x34 0x12)
    ∧ decode (.frame .toBlock [0xAA, 0x06, 0x58, 0xAA, 0x01, 0x5F]) = .ok (.frame 0x58 [0xAA, 0x01])
    ∧ decode (.host { we := true, idx := 1, wdata := 0x0009 }) = .ok .start
    ∧ decode (.rxByte 1 0 0x03) = .ok (.rxBadLen 0x03)
    ∧ decode (.step 5 2 3 false) = .ok .testDone

/-- R103: a write of COMMAND is decoded by its low three bits alone, each value as the table says; a write of TARGET is
SET_TARGET with the whole word. -/
def Obligations.CommandWritesDecodeByOp : Prop :=
  ∀ w : Half,
    decode (.host { we := true, idx := 1, wdata := w }) = .ok (
      match w.toNat % 8 with
      | 0 => .reservedOp0
      | 1 => .start
      | 2 => .stop
      | 3 => .fullyOpen
      | 4 => .fullyClose
      | 5 => .testOp
      | _ => .reservedOp67 (BitVec.ofNat 3 w.toNat))
    ∧ decode (.host { we := true, idx := 0, wdata := w }) = .ok (.setTarget w)

/-- R105: every byte in every state of the receiver selects exactly the row of the table. -/
def Obligations.ReceivedBytesDecodeByState : Prop :=
  ∀ (c : Fin 255) (l b : Byte),
    (c.val = 0 → decode (.rxByte c l b) = .ok (if b = 0xAA then .rxStart else .rxDrop b))
    ∧ (c.val = 1 → decode (.rxByte c l b) = .ok (if b.toNat ≤ 3 then .rxBadLen b else .rxLen b))
    ∧ (2 ≤ c.val → c.val + 2 ≤ l.toNat → decode (.rxByte c l b) = .ok (.rxData b))
    ∧ (2 ≤ c.val → c.val + 1 = l.toNat → decode (.rxByte c l b) = .ok (.rxLast b))

/-- R200, D34: which step of the block its state registers enable. -/
def Obligations.StateRegistersSelectTheStep : Prop :=
  ∀ s : State,
    (s.seq.state = .write → decode (stepCode s) = .ok .seqWrite)
    ∧ (s.seq.state = .wait → decode (stepCode s) = .ok .seqPoll)
    ∧ (s.seq.state = .free → s.reg.state = .running → s.reg.phase = .top → decode (stepCode s) = .ok .cyTop)
    ∧ (s.seq.state = .done → s.reg.state = .running → s.reg.phase = .flowTxn →
        decode (stepCode s) = .ok .cySample)
    ∧ (s.seq.state = .done → s.reg.state = .running → s.reg.phase = .motorTxn →
        decode (stepCode s) = .ok .cyAck)
    ∧ (s.seq.state = .free → s.reg.state = .running → s.reg.phase = .sleep → decode (stepCode s) = .ok .cyWake)
    ∧ (s.seq.state = .free → s.reg.state = .fullyOpen ∨ s.reg.state = .fullyClose → s.reg.phase = .top →
        decode (stepCode s) = .ok (if s.reg.osRem = 0 then .osEnd else .osMove))
    ∧ (s.seq.state = .done → s.reg.state = .fullyOpen ∨ s.reg.state = .fullyClose → s.reg.phase = .motorTxn →
        decode (stepCode s) = .ok .osNext)
    ∧ (s.seq.state = .done → s.reg.state = .test → s.reg.phase = .motorTxn → decode (stepCode s) = .ok .testDone)
    ∧ (s.seq.state = .free → s.reg.state = .idle → decode (stepCode s) = .error .noStepEnabled)

/-! ### One step -/

/-- A step runs the decoded operation: HOST's access when its turn is first in the schedule, the block's enabled step
when the block's turn is first or nothing is scheduled (R5, R35; the schedule is the model's, log 1). -/
def Obligations.StepRunsTheDecodedOperation : Prop :=
  ∀ s : State,
    (∀ a rest i, s.io.schedule = .host a :: rest → decode (.host a) = .ok i →
      step s = exec i { s with io := { s.io with schedule := rest } })
    ∧ (∀ rest i, s.io.schedule = .block :: rest → decode (stepCode s) = .ok i →
      step s = exec i { s with io := { s.io with schedule := rest } })
    ∧ (∀ i, s.io.schedule = [] → decode (stepCode s) = .ok i → step s = exec i s)

/-- R292 (and R290: nothing runs by itself after reset): with nothing scheduled (the
model's schedule, log 1), a quiescent block stays as it is. -/
def Obligations.QuiescentBlockRests : Prop :=
  (∀ s : State, s.io.schedule = [] → s.reg.state = .idle → s.seq.state = .free → step s = .next s)
    ∧ step State.reset = .next State.reset

/-- R290, R36: in a step with the reset input active every register for which R36 gives a value takes it. That reset
comes as a turn of the schedule, and that the environment's fields keep what they hold, is the model's choice (log 20). -/
def Obligations.ResetStepGivesResetValues : Prop :=
  ∀ (s : State) (rest : List Turn), s.io.schedule = .reset :: rest →
    ∃ t, step s = .next t ∧ t.rx.count.val = 0 ∧ t.rx.len = 0 ∧ t.rx.mode = .seeking
      ∧ t.seq.state = .free ∧ t.seq.polls = 0 ∧ t.seq.result = .ok
      ∧ t.reg.currentSteps = s.cfg.initSteps ∧ t.reg.targetFlow = 0 ∧ t.reg.state = .idle ∧ t.reg.phase = .top
      ∧ t.reg.stopFlag = false ∧ t.reg.flowOut = 0 ∧ t.reg.flowValid = false ∧ t.reg.linkOk = false
      ∧ t.reg.testDone = false ∧ t.reg.lastResult = .ok
      ∧ t.cfg = s.cfg ∧ t.io = { s.io with schedule := rest }

/-- R36: the values after reset, for every register for which R36 gives one. -/
def Obligations.ResetStateValues : Prop :=
  State.reset.rx.count.val = 0 ∧ State.reset.rx.len = 0 ∧ State.reset.seq.state = .free
    ∧ State.reset.seq.polls = 0 ∧ State.reset.seq.result = .ok
    ∧ State.reset.reg.currentSteps = State.reset.cfg.initSteps ∧ State.reset.reg.targetFlow = 0
    ∧ State.reset.reg.state = .idle ∧ State.reset.reg.phase = .top ∧ State.reset.reg.stopFlag = false
    ∧ State.reset.reg.flowOut = 0 ∧ State.reset.reg.flowValid = false
    ∧ State.reset.reg.linkOk = false ∧ State.reset.reg.testDone = false ∧ State.reset.reg.lastResult = .ok

/-! ### Frames -/

/-- R171 with R93 to R95: SEQ_BEGIN of each request, its frame's bytes written out; a byte that is no direction gives
InvalidDirection and no frame. That the rows MOTOR, FLOW and TEST mean the begin of their transaction alone is the
model's reading (log 9, DEDUCED), and so is that a MOTOR row takes any direction byte (log 21, DEDUCED). -/
def Obligations.RequestsBeginTheirTransaction : Prop :=
  ∀ s : State, s.seq.state = .free →
    (∀ d n m : Byte, d = 0x46 ∨ d = 0x42 → exec (.motor d n m) s = .next { s with seq := { s.seq with
        kind := .motor, frame := [0xAA, 0x07, 0x4D, d, n, m, 0xE0 ^^^ d ^^^ n ^^^ m], state := .write } })
    ∧ (∀ d n m : Byte, d ≠ 0x46 → d ≠ 0x42 → exec (.motor d n m) s = .next { s with seq := { s.seq with
        kind := .motor, result := .invalidDirection, state := .done } })
    ∧ exec .flow s = .next { s with seq := { s.seq with
        kind := .flow, frame := [0xAA, 0x04, 0x46, 0xE8], state := .write } }
    ∧ exec .test s = .next { s with seq := { s.seq with
        kind := .test, frame := [0xAA, 0x04, 0x54, 0xFA], state := .write } }

/-- R174 with R173: which received frame ends which wait, what a Flow reply leaves, and that every other frame is
discarded without a change of state. That a reply row means the hand-over of R147 to the wait, with the effect R173
gives it, is the model's reading (log 9, DEDUCED). -/
def Obligations.RepliesMatchByTag : Prop :=
  ∀ s : State, s.seq.state = .wait →
    (∀ l h : Byte, exec (.flowR l h) s = .next (if s.seq.kind = .flow then
        { s with seq := { s.seq with
          value := BitVec.ofNat 16 (l.toNat + 256 * h.toNat), result := .ok, state := .done } }
      else s))
    ∧ (∀ p : List Byte, p.length ≠ 2 → exec (.flowBadLen p) s = .next s)
    ∧ (∀ p : List Byte, exec (.motorR p) s = .next (if s.seq.kind = .motor then
        { s with seq := { s.seq with result := .ok, state := .done } } else s))
    ∧ (∀ p : List Byte, exec (.testR p) s = .next (if s.seq.kind = .test then
        { s with seq := { s.seq with result := .ok, state := .done } } else s))
    ∧ (∀ (t : Byte) (p : List Byte), t ≠ 0x4D → t ≠ 0x46 → t ≠ 0x54 → exec (.frame t p) s = .next s)

/-! ### The receiver -/

/-- R141, R142: in Seeking, a start byte is stored at index 0 and a capture begins; any other byte changes nothing. -/
def Obligations.SeekingStoresOnlyAStartByte : Prop :=
  ∀ s : State, s.seq.state = .wait → s.rx.count.val = 0 → s.rx.buf.wf →
    (∃ t, exec .rxStart s = .next t ∧ t = { s with rx := t.rx } ∧ t.rx.count.val = 1 ∧ t.rx.len = s.rx.len
      ∧ ∀ i, t.rx.buf.read i = if i = 0 then 0xAA else s.rx.buf.read i)
    ∧ (∀ b : Byte, b ≠ 0xAA → exec (.rxDrop b) s = .next s)

/-- R143, R144: in LengthPending, a length byte below 4 empties the receiver; any other is recorded. Either is stored
at index 1. -/
def Obligations.LengthByteIsRecordedOrDiscarded : Prop :=
  ∀ (s : State) (b : Byte), s.seq.state = .wait → s.rx.count.val = 1 → s.rx.buf.wf →
    (b.toNat < 4 → ∃ t, exec (.rxBadLen b) s = .next t ∧ t = { s with rx := t.rx } ∧ t.rx.count.val = 0
      ∧ t.rx.len = 0 ∧ ∀ i, t.rx.buf.read i = if i = 1 then b else s.rx.buf.read i)
    ∧ (4 ≤ b.toNat → ∃ t, exec (.rxLen b) s = .next t ∧ t = { s with rx := t.rx } ∧ t.rx.count.val = 2
      ∧ t.rx.len = b ∧ ∀ i, t.rx.buf.read i = if i = 1 then b else s.rx.buf.read i)

/-- R145: in Accumulating, a byte that is not the last is stored at `rx_count`, which advances by 1. -/
def Obligations.DataByteIsAppended : Prop :=
  ∀ (s : State) (b : Byte), s.seq.state = .wait → 2 ≤ s.rx.count.val → s.rx.count.val + 1 < s.rx.len.toNat →
    s.rx.buf.wf →
    ∃ t, exec (.rxData b) s = .next t ∧ t = { s with rx := t.rx } ∧ t.rx.count.val = s.rx.count.val + 1
      ∧ t.rx.len = s.rx.len ∧ ∀ i, t.rx.buf.read i = if i = s.rx.count.val then b else s.rx.buf.read i

/-- R146, R147: the byte that completes a capture empties the receiver; if the captured bytes validate, the frame they
are is handed to the wait in the same step (its row runs on the emptied receiver), else nothing else changes. -/
def Obligations.LastByteEmitsAValidFrame : Prop :=
  ∀ (s : State) (b : Byte), s.seq.state = .wait → 2 ≤ s.rx.count.val → s.rx.count.val + 1 = s.rx.len.toNat →
    s.rx.buf.wf →
    ∃ t, (exec (.rxLast b) s = .next t ∧ t = { s with rx := t.rx, seq := t.seq } ∧ t.rx.count.val = 0
        ∧ t.rx.len = 0 ∧ ∀ i, t.rx.buf.read i = if i = s.rx.count.val then b else s.rx.buf.read i)
      ∧ (codecValidate (s.rx.buf.readRange 0 s.rx.count.val ++ [b]) s.rx.len.toNat = true →
        ∃ i, decode (.frame .toBlock (s.rx.buf.readRange 0 s.rx.count.val ++ [b])) = .ok i
          ∧ exec i { s with rx := t.rx } = .next t)
      ∧ (codecValidate (s.rx.buf.readRange 0 s.rx.count.val ++ [b]) s.rx.len.toNat = false → t.seq = s.seq)

/-- R141 to R148: from Seeking, a start byte, a length L of 4 to 255 and any L - 2 bytes are one capture: the receiver
is in Seeking again exactly after them, and they are emitted as one frame if the last byte is the XOR of the others,
else nothing is. No byte among them is looked at as a start byte. -/
def Obligations.CaptureTakesItsDeclaredLength : Prop :=
  ∀ (s : State) (len : Byte) (rest : List Byte), s.rx.count.val = 0 → s.rx.buf.wf → 4 ≤ len.toNat →
    rest.length + 2 = len.toNat →
    (rxFeed (0xAA :: len :: rest) s).1.rx.mode = .seeking
    ∧ (∀ k, 0 < k → k < len.toNat → (rxFeed ((0xAA :: len :: rest).take k) s).1.rx.mode ≠ .seeking)
    ∧ (rxFeed (0xAA :: len :: rest) s).2 =
      if rest.getLast? = some (xor8 (0xAA :: len :: rest.dropLast)) then
        [{ command := rest.getD 0 0, payload := (rest.drop 1).dropLast }]
      else []

/-- R151 a and c: from Seeking, bytes without a start byte, an encoded frame, and bytes without a start byte emit
exactly that frame and end in Seeking. -/
def Obligations.OneFrameAmidGarbage : Prop :=
  ∀ (s : State) (before after f : List Byte) (c : Byte) (p : List Byte),
    s.rx.count.val = 0 → s.rx.buf.wf → codecEncode c p = .ok f →
    (0xAA : Byte) ∉ before → (0xAA : Byte) ∉ after →
    (rxFeed (before ++ f ++ after) s).2 = [{ command := c, payload := p }]
      ∧ (rxFeed (before ++ f ++ after) s).1.rx.mode = .seeking

/-! ### The sequencer -/

/-- R172, R63: SEQ_WRITE on either answer of TRANSPORT; either way the frame is given to TRANSPORT whole, so the TX
stream of R63 gains it. That a call uses up one given answer, is counted and is answered by the next given one is the
model's choice (log 2), and so are the log of the writes and its reading as two streams (log 7). -/
def Obligations.SeqWriteSendsTheFrameAndWaits : Prop :=
  ∀ s : State, s.seq.state = .write →
    (s.nextWriteAnswer = .error → exec .seqWrite s = .next { s with
      seq := { s.seq with result := .transportError, state := .done }
      io := { s.io with
        writeAnswers := s.io.writeAnswers.tail, writes := s.io.writes + 1
        txLog := s.io.txLog ++ [⟨s.seq.frame, .error⟩] } })
    ∧ (s.nextWriteAnswer = .ok → exec .seqWrite s = .next { s with
      seq := { s.seq with polls := 0, state := .wait }
      rx := if s.cfg.rxClearOnWait then { s.rx with count := 0, len := 0 } else s.rx
      io := { s.io with
        writeAnswers := s.io.writeAnswers.tail, writes := s.io.writes + 1
        txLog := s.io.txLog ++ [⟨s.seq.frame, .ok⟩] } })
    ∧ (∃ t, exec .seqWrite s = .next t ∧ t.io.txStream = s.io.txStream ++ s.seq.frame
      ∧ t.io.txAccepted = s.io.txAccepted ++ (if s.nextWriteAnswer = .ok then s.seq.frame else []))

/-- R173, R258 c: SEQ_POLL. The budget is tested first; then one read attempt is made and counted, an error ends the
wait, no data changes nothing else, and a byte runs the row it is decoded to. That an answer of any kind, no_data and
error too, is taken off the given answers and counted is the model's choice (log 2): R66's "consumes nothing" is said
of the bytes on the link. -/
def Obligations.SeqPollSpendsOneReadAttempt : Prop :=
  ∀ s : State, s.seq.state = .wait →
    (s.cfg.maxPolls ≤ s.seq.polls →
      exec .seqPoll s = .next { s with seq := { s.seq with result := .noResponse, state := .done } })
    ∧ (s.seq.polls < s.cfg.maxPolls →
      ∃ s2, s2 = { s with
          seq := { s.seq with polls := s.seq.polls + 1 }
          io := { s.io with readAnswers := s.io.readAnswers.tail, reads := s.io.reads + 1 } }
        ∧ (s.transportRead.1 = .error →
          exec .seqPoll s = .next { s2 with seq := { s2.seq with result := .transportError, state := .done } })
        ∧ (s.transportRead.1 = .noData → exec .seqPoll s = .next s2)
        ∧ (∀ b, s.transportRead.1 = .byte b →
          ∃ i t, decode (.rxByte s.rx.count s.rx.len b) = .ok i ∧ exec i s2 = .next t
            ∧ exec .seqPoll s = .next t))

/-- R180: every transaction begun in Free ends, after one write at most and MAX_POLLS reads at most. The two
counts are the model's fields (log 2). -/
def Obligations.EveryTransactionEnds : Prop :=
  ∀ (q : Request) (s : State), s.seq.state = .free →
    (transaction q s).seq.state = .done
      ∧ (transaction q s).io.writes ≤ s.io.writes + 1
      ∧ (transaction q s).io.reads ≤ s.io.reads + s.cfg.maxPolls
      ∧ (transaction q s).reg = s.reg

/-- R173, R253: against a device that never answers, exactly MAX_POLLS read attempts are made and the transaction ends
in NoResponse; the receiver is as it was, or empty where RX_CLEAR_ON_WAIT says so. The given answers and the count of
reads are the model's fields (log 2). -/
def Obligations.SilentDeviceGivesNoResponse : Prop :=
  ∀ (q : Request) (s : State) (n : Nat), s.seq.state = .free → q.valid = true →
    s.nextWriteAnswer = .ok → s.cfg.maxPolls ≤ n → s.io.readAnswers = List.replicate n .noData →
    (transaction q s).seq.result = .noResponse
      ∧ (transaction q s).io.reads = s.io.reads + s.cfg.maxPolls
      ∧ (transaction q s).rx = if s.cfg.rxClearOnWait then { s.rx with count := 0, len := 0 } else s.rx

/-- R296: on a link that echoes what is written, with a receiver in Seeking, a Motor request and a Test request are
acknowledged by their own bytes, and a Flow request is not. The echo is given as the next answers (log 2). -/
def Obligations.EchoAcknowledgesMotorAndTest : Prop :=
  ∀ s : State, s.seq.state = .free → s.rx.count.val = 0 → s.rx.buf.wf → s.nextWriteAnswer = .ok →
    (∀ (d n m : Byte) (rest : List ReadAnswer), d = 0x46 ∨ d = 0x42 → 7 ≤ s.cfg.maxPolls →
      s.io.readAnswers = [0xAA, 0x07, 0x4D, d, n, m, 0xE0 ^^^ d ^^^ n ^^^ m].map .byte ++ rest →
      (sendMotor d n m s).1 = .ok)
    ∧ (∀ rest : List ReadAnswer, 4 ≤ s.cfg.maxPolls →
      s.io.readAnswers = [0xAA, 0x04, 0x54, 0xFA].map .byte ++ rest → (connectivityTest s).1 = true)
    ∧ (∀ n : Nat, s.cfg.maxPolls ≤ n + 4 →
      s.io.readAnswers = [0xAA, 0x04, 0x46, 0xE8].map .byte ++ List.replicate n .noData →
      (requestFlow s).1 = .error .noResponse)

/-! ### The host port -/

/-- R201: SET_TARGET writes `target_flow` in every state, and nothing else. -/
def Obligations.SetTargetWritesOnlyTheTarget : Prop :=
  ∀ (v : Half) (s : State), exec (.setTarget v) s = .next { s with reg := { s.reg with targetFlow := v } }

/-- R202: START in Idle with a positive target begins Running, clears the stop flag and takes the time; else it
changes nothing. That `Now()` uses up one given time and is counted is the model's choice (log 3). -/
def Obligations.StartRunsFromIdleWithATarget : Prop :=
  ∀ s : State,
    (s.reg.state = .idle → 0 < s.reg.targetFlow.toNat → exec .start s = .next { s with
      reg := { s.reg with
        state := .running, phase := .top, stopFlag := false, lastSampleTime := s.now.1 }
      io := { s.io with times := s.io.times.tail, nows := s.io.nows + 1 } })
    ∧ (s.reg.state ≠ .idle ∨ s.reg.targetFlow.toNat = 0 → exec .start s = .next s)

/-- R203: STOP sets the stop flag in Running, and changes nothing else in any state. -/
def Obligations.StopOnlyRaisesTheFlag : Prop :=
  ∀ s : State,
    (s.reg.state = .running → exec .stop s = .next { s with reg := { s.reg with stopFlag := true } })
    ∧ (s.reg.state ≠ .running → exec .stop s = .next s)

/-- R214, R217: FULLY_OPEN and FULLY_CLOSE in Idle begin their one-shot operation over the distance to the bound;
outside Idle they are ignored. -/
def Obligations.OneShotTakesTheDistance : Prop :=
  ∀ s : State,
    (s.reg.state = .idle →
      exec .fullyOpen s = .next { s with reg := { s.reg with
        state := .fullyOpen, phase := .top, osRem := s.cfg.maxTravel - s.reg.currentSteps } }
      ∧ exec .fullyClose s = .next { s with reg := { s.reg with
        state := .fullyClose, phase := .top, osRem := s.reg.currentSteps } })
    ∧ (s.reg.state ≠ .idle → exec .fullyOpen s = .next s ∧ exec .fullyClose s = .next s)

/-- R219: TEST in Idle begins the Test transaction, and outside Idle is ignored; TEST_DONE takes the result into
`link_ok` and returns to Idle. -/
def Obligations.ConnectivityTestReportsTheLink : Prop :=
  ∀ s : State,
    (s.reg.state = .idle → exec .testOp s = .next { s with
      reg := { s.reg with state := .test, phase := .motorTxn, testDone := false }
      seq := { s.seq with kind := .test, frame := [0xAA, 0x04, 0x54, 0xFA], state := .write } })
    ∧ (s.reg.state ≠ .idle → exec .testOp s = .next s)
    ∧ (s.reg.state = .test → s.reg.phase = .motorTxn → s.seq.state = .done → exec .testDone s = .next { s with
      seq := { s.seq with state := .free }
      reg := { s.reg with
        linkOk := decide (s.seq.result = .ok), testDone := true, lastResult := s.seq.result
        state := .idle, phase := .top } })

/-- R220: an operation in the wrong state and the reserved op codes change no state. -/
def Obligations.WrongStateOperationsAreIgnored : Prop :=
  ∀ s : State,
    (s.reg.state ≠ .idle → exec .start s = .next s ∧ exec .fullyOpen s = .next s ∧ exec .fullyClose s = .next s
      ∧ exec .testOp s = .next s)
    ∧ (s.reg.state ≠ .running → exec .stop s = .next s)
    ∧ exec .reservedOp0 s = .next s
    ∧ (∀ op : BitVec 3, op = 6 ∨ op = 7 → exec (.reservedOp67 op) s = .next s)

/-- R33, R72: a read shows the register of its index and changes no register; a write to any index above 1 is ignored.
That the port's data stands in a field until the next read is the model's choice (log 8). -/
def Obligations.HostReadsShowTheRegisters : Prop :=
  ∀ s : State,
    exec (.hostRead 0) s = .next { s with io := { s.io with hRdata := .word s.reg.targetFlow.toNat } }
    ∧ exec (.hostRead 1) s = .next { s with io := { s.io with hRdata := .word 0 } }
    ∧ exec (.hostRead 2) s = .next { s with io := { s.io with hRdata := .word s.statusWord.toNat } }
    ∧ exec (.hostRead 3) s = .next { s with io := { s.io with hRdata := .word s.reg.currentSteps } }
    ∧ exec (.hostRead 4) s = .next { s with io := { s.io with
        hRdata := .rate (if s.reg.flowValid then s.reg.flowOut else 0) } }
    ∧ (∀ idx : BitVec 3, 5 ≤ idx.toNat → exec (.hostRead idx) s = .next { s with io := { s.io with hRdata := .word 0 } })
    ∧ (∀ idx : BitVec 3, idx = 2 ∨ idx = 3 → exec (.writeIgnored23 idx) s = .next s)
    ∧ (∀ idx : BitVec 3, 4 ≤ idx.toNat → exec (.writeIgnored47 idx) s = .next s)

/-- R33's STATUS fields: each bit of the word. -/
def Obligations.StatusWordHoldsItsFields : Prop :=
  ∀ s : State,
    s.statusWord.toNat % 8 = (match s.reg.state with
      | .idle => 0 | .running => 1 | .stopping => 2 | .fullyOpen => 3 | .fullyClose => 4 | .test => 5)
    ∧ s.statusWord.getLsbD 3 = s.reg.stopFlag ∧ s.statusWord.getLsbD 4 = s.reg.linkOk
    ∧ s.statusWord.getLsbD 5 = s.reg.testDone ∧ s.statusWord.getLsbD 6 = s.reg.flowValid
    ∧ s.statusWord.getLsbD 7 = false
    ∧ s.statusWord.toNat / 256 = (match s.reg.lastResult with
      | .ok => 0 | .invalidDirection => 1 | .noResponse => 2 | .transportError => 3 | .payloadTooLarge => 4)

/-! ### The Running cycle -/

/-- R204: CY_TOP with the stop flag returns to Idle and clears it; without, it begins the Flow transaction. -/
def Obligations.CycleTopPollsTheStopFlag : Prop :=
  ∀ s : State, s.reg.state = .running → s.reg.phase = .top → s.seq.state = .free →
    (s.reg.stopFlag = true →
      exec .cyTop s = .next { s with reg := { s.reg with state := .idle, stopFlag := false } })
    ∧ (s.reg.stopFlag = false → exec .cyTop s = .next { s with
      reg := { s.reg with phase := .flowTxn }
      seq := { s.seq with kind := .flow, frame := [0xAA, 0x04, 0x46, 0xE8], state := .write } })

/-- R211: a failed Flow transaction skips the cycle to its sleep with no publication, no move and no new sample time; a
failed Motor transaction skips the position update. -/
def Obligations.FailedTransactionsSkipToSleep : Prop :=
  ∀ s : State, s.reg.state = .running → s.seq.state = .done → s.seq.result ≠ .ok →
    (s.reg.phase = .flowTxn → exec .cySample s = .next { s with
      seq := { s.seq with state := .free }
      reg := { s.reg with lastResult := s.seq.result, phase := .sleep } })
    ∧ (s.reg.phase = .motorTxn → exec .cyAck s = .next { s with
      seq := { s.seq with state := .free }
      reg := { s.reg with lastResult := s.seq.result, phase := .sleep } })

/-- R205 (with R206 to R209, R211): CY_SAMPLE. After a failed Flow transaction the cycle sleeps. After a successful
one, with t the timebase's value, e the elapsed ticks modulo 2^TIME_W and r the exact rate: t, r and `flow_valid` are
written; below the band an open correction, above it a close correction is begun, its steps clamped to the travel
bound, unless nothing is left to move; else the cycle sleeps. That `Now()` uses up one given time and is counted is the
model's choice (log 3). -/
def Obligations.SamplePublishesAndCorrects : Prop :=
  ∀ (s : State) (e : Nat) (r : Rat),
    s.reg.state = .running → s.reg.phase = .flowTxn → s.seq.state = .done →
    (e : Int) = ((s.now.1 : Int) - (s.reg.lastSampleTime : Int)) % (2 : Int) ^ s.cfg.timeW →
    (e = 0 → r = 0) →
    (e ≠ 0 → r = (s.seq.value.toNat : Rat) * s.cfg.cal / ((e : Rat) / (s.cfg.tickHz : Rat))) →
    let target : Rat := (s.reg.targetFlow.toNat : Rat)
    let base : RegRegs := { s.reg with lastResult := .ok, lastSampleTime := s.now.1, flowOut := r, flowValid := true }
    let io : Io := { s.io with times := s.io.times.tail, nows := s.io.nows + 1 }
    let begun (open' : Bool) (n : Nat) : State :=
      let d : Byte := if open' = decide (s.cfg.dirOpen = .forward) then 0x46 else 0x42
      let b : Byte := BitVec.ofNat 8 n
      { s with
        io := io
        reg := { base with mvDir := d, mvN := b, phase := .motorTxn }
        seq := { s.seq with
          kind := .motor, frame := [0xAA, 0x07, 0x4D, d, b, 0x01, 0xE0 ^^^ d ^^^ b ^^^ 0x01], state := .write } }
    let asleep : State := { s with io := io, reg := { base with phase := .sleep }, seq := { s.seq with state := .free } }
    let up := min 200 (s.cfg.maxTravel - s.reg.currentSteps)
    let down := min 200 s.reg.currentSteps
    (s.seq.result ≠ .ok → exec .cySample s = .next { s with
      seq := { s.seq with state := .free }
      reg := { s.reg with lastResult := s.seq.result, phase := .sleep } })
    ∧ (s.seq.result = .ok → r < target - s.cfg.tolFrac * target →
      exec .cySample s = .next (if up = 0 then asleep else begun true up))
    ∧ (s.seq.result = .ok → target + s.cfg.tolFrac * target < r →
      exec .cySample s = .next (if down = 0 then asleep else begun false down))
    ∧ (s.seq.result = .ok → target - s.cfg.tolFrac * target ≤ r → r ≤ target + s.cfg.tolFrac * target →
      exec .cySample s = .next asleep)

/-- R213: with CAL = cn/cd and TOL_FRAC = tn/td, the two comparisons of the rate with the band are integer
comparisons. -/
def Obligations.BandComparisonsAreIntegral : Prop :=
  ∀ (p : Params) (pulses target e cn cd tn td : Nat), 0 < e → 0 < cd → 0 < td → tn ≤ td →
    p.cal = (cn : Rat) / (cd : Rat) → p.tolFrac = (tn : Rat) / (td : Rat) →
    (bandOf p target (rate p pulses e) = .below ↔
      pulses * cn * p.tickHz * td < target * (td - tn) * cd * e)
    ∧ (bandOf p target (rate p pulses e) = .above ↔
      target * (td + tn) * cd * e < pulses * cn * p.tickHz * td)

/-- R210: CY_ACK adds or subtracts the steps of an acknowledged move by its direction, and leaves the position as it is
where the move failed. -/
def Obligations.AcknowledgedMoveUpdatesThePosition : Prop :=
  ∀ s : State, s.reg.state = .running → s.reg.phase = .motorTxn → s.seq.state = .done →
    exec .cyAck s = .next { s with
      seq := { s.seq with state := .free }
      reg := { s.reg with
        lastResult := s.seq.result, phase := .sleep
        currentSteps :=
          if s.seq.result ≠ .ok then s.reg.currentSteps
          else if s.reg.mvDir = (if s.cfg.dirOpen = .forward then 0x46 else 0x42) then
            s.reg.currentSteps + s.reg.mvN.toNat
          else s.reg.currentSteps - s.reg.mvN.toNat } }

/-- R212: CY_WAKE ends the sleep and does not look at the stop flag. -/
def Obligations.WakeReturnsToTheTop : Prop :=
  ∀ s : State, s.reg.state = .running → s.reg.phase = .sleep → s.seq.state = .free →
    exec .cyWake s = .next { s with reg := { s.reg with phase := .top } }

/-! ### The one-shot operations -/

/-- R215: OS_MOVE begins a full move (200 steps, a multiplier of at most 255) while 200 or more remain, else the
remainder move, in the operation's direction, and takes its size off the distance. -/
def Obligations.OneShotMovesBySizeAndRemainder : Prop :=
  ∀ s : State, s.reg.state = .fullyOpen ∨ s.reg.state = .fullyClose → s.reg.phase = .top → s.seq.state = .free →
    0 < s.reg.osRem →
    ∀ d : Byte, d = (if decide (s.reg.state = .fullyOpen) = decide (s.cfg.dirOpen = .forward) then 0x46 else 0x42) →
    (200 ≤ s.reg.osRem → ∀ m : Nat, m = min (s.reg.osRem / 200) 255 → exec .osMove s = .next { s with
      reg := { s.reg with osRem := s.reg.osRem - 200 * m, phase := .motorTxn }
      seq := { s.seq with
        kind := .motor, state := .write
        frame := [0xAA, 0x07, 0x4D, d, 0xC8, BitVec.ofNat 8 m, 0xE0 ^^^ d ^^^ 0xC8 ^^^ BitVec.ofNat 8 m] } })
    ∧ (s.reg.osRem < 200 → ∀ b : Byte, b = BitVec.ofNat 8 s.reg.osRem → exec .osMove s = .next { s with
      reg := { s.reg with osRem := 0, phase := .motorTxn }
      seq := { s.seq with
        kind := .motor, state := .write
        frame := [0xAA, 0x07, 0x4D, d, b, 0x01, 0xE0 ^^^ d ^^^ b ^^^ 0x01] } })

/-- R216, R223: OS_NEXT goes on whatever the result was and leaves the position alone; OS_END writes the bound. -/
def Obligations.OneShotGoesOnAndEndsAtTheBound : Prop :=
  ∀ s : State, s.reg.state = .fullyOpen ∨ s.reg.state = .fullyClose →
    (s.reg.phase = .motorTxn → s.seq.state = .done → exec .osNext s = .next { s with
      seq := { s.seq with state := .free }
      reg := { s.reg with lastResult := s.seq.result, phase := .top } })
    ∧ (s.reg.phase = .top → s.seq.state = .free → s.reg.osRem = 0 → exec .osEnd s = .next { s with
      reg := { s.reg with
        state := .idle, currentSteps := if s.reg.state = .fullyOpen then s.cfg.maxTravel else 0 } })

/-- R218: the moves of a distance are full moves with multiplier 255, one with what is left of the quotient, and one
remainder move; their sizes sum to the distance. -/
def Obligations.OneShotPlanSumsToTheDistance : Prop :=
  ∀ d : Nat,
    oneShotPlan d d =
      (if d / 200 = 0 then [] else
        List.replicate ((d / 200 - 1) / 255) (200, 255) ++ [(200, d / 200 - 255 * ((d / 200 - 1) / 255))])
      ++ (if d % 200 = 0 then [] else [(d % 200, 1)])
    ∧ ((oneShotPlan d d).map fun mv => mv.1 * mv.2).sum = d
    ∧ ∀ mv ∈ oneShotPlan d d, 0 < mv.1 ∧ mv.1 ≤ 200 ∧ 0 < mv.2 ∧ mv.2 ≤ 255

/-! ### The whole machine -/

/-- R40: the invariants between steps hold after reset, whatever the parameters. For the registers R36 leaves
unspecified it rests on the model's reset values (logs 5 and 6). -/
def Obligations.InvariantHoldsAtReset : Prop :=
  Inv State.reset ∧ ∀ p : Params, Inv (State.resetWith p)

/-- R40: every step keeps the invariants between steps. -/
def Obligations.InvariantIsKeptByEveryStep : Prop :=
  ∀ s t : State, Inv s → step s = .next t → Inv t

/-- R40 and U28 (nothing in the block is stuck): in every state that the invariants allow, a step goes on. -/
def Obligations.NoStepIsStuck : Prop :=
  ∀ s : State, Inv s → stepsOn s

/-- The machine never refuses: `step` selects only operations whose precondition holds (model's choice of refusal for
the others, log 12). -/
def Obligations.StepIsNeverRefused : Prop :=
  ∀ (s : State) (r : Refusal), step s ≠ .refused r

/-- R309, R218, R302: with no further host access, every one-shot operation, every TEST and every Running with the stop
flag set reaches quiescence within a bound, and a one-shot operation ends at its bound whatever TRANSPORT answers.
That an empty schedule leaves every turn to the block is the model's choice (log 1). -/
def Obligations.EveryOperationReachesQuiescence : Prop :=
  ∀ s : State, Inv s → s.io.schedule = [] → (s.reg.state = .running → s.reg.stopFlag = true) →
    ∃ (n : Nat) (t : State), n ≤ (s.reg.osRem + 2) * (s.cfg.maxPolls + 4)
      ∧ Host.Core.run Sys2Proof.core n s = .next t ∧ quiescent t = true
      ∧ (s.reg.state = .fullyOpen → t.reg.currentSteps = s.cfg.maxTravel)
      ∧ (s.reg.state = .fullyClose → t.reg.currentSteps = 0)

/-- R39, R206, R221 and the ownership of R20 to R32: which operations can change which register. -/
def Obligations.RegistersChangeOnlyByTheirOwners : Prop :=
  ∀ (i : Instr) (s t : State), exec i s = .next t →
    t.cfg = s.cfg ∧ t.io.schedule = s.io.schedule
    ∧ (t.reg.currentSteps ≠ s.reg.currentSteps → i = .cyAck ∨ i = .osEnd)
    ∧ (t.reg.targetFlow ≠ s.reg.targetFlow → ∃ v, i = .setTarget v)
    ∧ (t.reg.flowOut ≠ s.reg.flowOut ∨ t.reg.flowValid ≠ s.reg.flowValid → i = .cySample)
    ∧ (t.reg.stopFlag ≠ s.reg.stopFlag → i = .start ∨ i = .stop ∨ i = .cyTop)
    ∧ (t.reg.lastSampleTime ≠ s.reg.lastSampleTime → i = .start ∨ i = .cySample)
    ∧ (t.reg.lastResult ≠ s.reg.lastResult → i = .cySample ∨ i = .cyAck ∨ i = .osNext ∨ i = .testDone)
    ∧ (t.reg.linkOk ≠ s.reg.linkOk → i = .testDone)
    ∧ (t.io.txLog ≠ s.io.txLog → i = .seqWrite)
    ∧ (t.rx ≠ s.rx → i = .seqWrite ∨ i = .seqPoll ∨ i = .rxStart ∨ ∃ b, i = .rxBadLen b ∨ i = .rxLen b
        ∨ i = .rxData b ∨ i = .rxLast b)

/-- Outside the state its rule asks for, an operation is refused by name and nothing else (the model's choice, log 12:
the spec gives no effect to an operation that does not take place). -/
def Obligations.OperationsOutsideTheirStateAreRefused : Prop :=
  ∀ s : State,
    (s.seq.state ≠ .free → (∀ d n m, exec (.motor d n m) s = .refused .notEnabled)
      ∧ exec .flow s = .refused .notEnabled ∧ exec .test s = .refused .notEnabled)
    ∧ (s.seq.state ≠ .wait → exec .seqPoll s = .refused .notEnabled ∧ exec .rxStart s = .refused .notEnabled
      ∧ (∀ b, exec (.rxDrop b) s = .refused .notEnabled ∧ exec (.rxBadLen b) s = .refused .notEnabled
        ∧ exec (.rxLen b) s = .refused .notEnabled ∧ exec (.rxData b) s = .refused .notEnabled
        ∧ exec (.rxLast b) s = .refused .notEnabled)
      ∧ (∀ l h, exec (.flowR l h) s = .refused .notEnabled)
      ∧ (∀ p, exec (.flowBadLen p) s = .refused .notEnabled ∧ exec (.motorR p) s = .refused .notEnabled
        ∧ exec (.testR p) s = .refused .notEnabled ∧ ∀ t, exec (.frame t p) s = .refused .notEnabled))
    ∧ (s.seq.state ≠ .write → exec .seqWrite s = .refused .notEnabled)
    ∧ (s.reg.state ≠ .running → exec .cyTop s = .refused .notEnabled ∧ exec .cySample s = .refused .notEnabled
      ∧ exec .cyAck s = .refused .notEnabled ∧ exec .cyWake s = .refused .notEnabled)
    ∧ (s.reg.state ≠ .fullyOpen → s.reg.state ≠ .fullyClose → exec .osMove s = .refused .notEnabled
      ∧ exec .osEnd s = .refused .notEnabled ∧ exec .osNext s = .refused .notEnabled)
    ∧ (s.reg.state ≠ .test → exec .testDone s = .refused .notEnabled)
end

