-- ==== Sys2Proof/Laws/Codec.lean ====
section
/-! SUPPORT. The codec: XOR8 over appended lists, the shape of an encoded frame, what `validate` says. -/

namespace Sys2Proof

theorem foldl_xor_eq (l : List Byte) (a : Byte) : l.foldl (· ^^^ ·) a = a ^^^ xor8 l := by
  induction l generalizing a with
  | nil => simp [xor8]
  | cons b l ih =>
    simp only [xor8, List.foldl_cons] at *
    rw [ih (a ^^^ b), ih (0 ^^^ b)]
    simp [BitVec.xor_assoc]

@[simp] theorem xor8_nil : xor8 [] = 0 := rfl

@[simp] theorem xor8_cons (b : Byte) (l : List Byte) : xor8 (b :: l) = b ^^^ xor8 l := by
  have h : xor8 (b :: l) = l.foldl (· ^^^ ·) (0 ^^^ b) := rfl
  rw [h, foldl_xor_eq]
  simp

@[simp] theorem xor8_append (l m : List Byte) : xor8 (l ++ m) = xor8 l ^^^ xor8 m := by
  induction l with
  | nil => simp
  | cons b l ih => simp [ih, BitVec.xor_assoc]

theorem payloadFits_iff {p : List Byte} : payloadFits p = true ↔ p.length ≤ 251 := decide_eq_true_iff

@[simp] theorem frameBody_length (c : Byte) (p : List Byte) : (frameBody c p).length = p.length + 3 := by
  simp [frameBody]

@[simp] theorem frameBytes_length (c : Byte) (p : List Byte) : (frameBytes c p).length = p.length + 4 := by
  simp [frameBytes]

/-- The four conditions of `validate` (R122). -/
theorem codecValidate_iff (buf : List Byte) (n : Nat) :
    codecValidate buf n = true ↔
      4 ≤ n ∧ n ≤ 255 ∧ buf[0]? = some 0xAA ∧ buf[1]?.map BitVec.toNat = some n
        ∧ buf[n - 1]? = some (xor8 (buf.take (n - 1))) := by
  simp only [codecValidate, Bool.and_eq_true, decide_eq_true_eq, beq_iff_eq, and_assoc]
  exact Iff.rfl

/-- `encode` of a payload that fits (R121). -/
theorem codecEncode_ok {c : Byte} {p : List Byte} (h : p.length ≤ 251) : codecEncode c p = .ok (frameBytes c p) :=
  if_neg (by simp only [Config.maxPayload]; omega)

/-- `encode` of a payload that does not fit (R121). -/
theorem codecEncode_error {c : Byte} {p : List Byte} (h : 251 < p.length) :
    codecEncode c p = .error (.payloadTooLarge p.length) := if_pos h

/-- The command byte of an encoded frame. -/
@[simp] theorem frameCommand_frameBytes (c : Byte) (p : List Byte) : frameCommand (frameBytes c p) = c := by
  simp [frameCommand, frameBytes, frameBody]

/-- The payload of an encoded frame. -/
@[simp] theorem framePayload_frameBytes (c : Byte) (p : List Byte) : framePayload (frameBytes c p) = p := by
  simp [framePayload, frameBytes, frameBody]

/-- A payload of a frame leaves the length byte unwrapped. -/
theorem frameLength_toNat {p : List Byte} (h : p.length ≤ 251) :
    (BitVec.ofNat 8 (4 + p.length)).toNat = 4 + p.length := by
  rw [BitVec.toNat_ofNat]
  omega

/-- An encoded frame validates with its own length (R123's fact, for the bytes). -/
theorem codecValidate_frameBytes_take {c : Byte} {p : List Byte} (h : p.length ≤ 251) :
    (frameBytes c p)[1]?.map BitVec.toNat = some (p.length + 4)
      ∧ (frameBytes c p).take (p.length + 3) = frameBody c p
      ∧ (frameBytes c p)[p.length + 3]? = some (xor8 (frameBody c p)) := by
  refine ⟨?_, ?_, ?_⟩
  · have := frameLength_toNat h
    simp [frameBytes, frameBody, this, Nat.add_comm]
  · simp [frameBytes]
  · simp [frameBytes]

/-- Bytes that validate with their whole length are the frame of their command and payload. -/
theorem eq_frameBytes_of_valid {bs : List Byte} (h : codecValidate bs bs.length = true) :
    bs = frameBytes (frameCommand bs) (framePayload bs) ∧ (framePayload bs).length + 4 = bs.length := by
  obtain ⟨h4, h255, h0, h1, hc⟩ := (codecValidate_iff _ _).mp h
  match bs, h4 with
  | a :: l :: c :: rest, _ =>
    simp only [List.length_cons] at *
    have hr : 0 < rest.length := by omega
    have ha : a = 0xAA := by simpa using h0
    have hl : l.toNat = rest.length + 3 := by simpa using h1
    have hp : framePayload (a :: l :: c :: rest) = rest.dropLast := by
      simp [framePayload, List.dropLast_eq_take]
    have hlast : rest = rest.dropLast ++ [rest.getLast (List.ne_nil_of_length_pos hr)] :=
      (List.dropLast_append_getLast _).symm
    have hsum : rest.getLast (List.ne_nil_of_length_pos hr) = xor8 (a :: l :: c :: rest.dropLast) := by
      obtain ⟨n, hn⟩ : ∃ n, rest.length = n + 1 := ⟨rest.length - 1, by omega⟩
      have e1 : (a :: l :: c :: rest)[rest.length + 2]? = rest[n]? := by rw [hn]; rfl
      have e2 : (a :: l :: c :: rest).take (rest.length + 2) = a :: l :: c :: rest.dropLast := by
        rw [hn, List.dropLast_eq_take, hn]; rfl
      have hc' : (a :: l :: c :: rest)[rest.length + 2]? =
          some (xor8 ((a :: l :: c :: rest).take (rest.length + 2))) := hc
      rw [e1, e2] at hc'
      rw [List.getLast_eq_getElem]
      have : rest[n]? = some (rest[rest.length - 1]'(by omega)) := by
        rw [List.getElem?_eq_getElem (by omega)]; simp [hn]
      rw [this] at hc'
      exact Option.some.inj hc'
    have hlen : l = BitVec.ofNat 8 (4 + rest.dropLast.length) := by
      apply BitVec.eq_of_toNat_eq
      rw [BitVec.toNat_ofNat, List.length_dropLast, hl]
      omega
    refine ⟨?_, ?_⟩
    · rw [hp]
      have hcmd : frameCommand (a :: l :: c :: rest) = c := rfl
      rw [hcmd]
      unfold frameBytes
      have hb : frameBody c rest.dropLast = a :: l :: c :: rest.dropLast := by
        simp [frameBody, Config.startByte, ha, hlen]
      rw [hb, ← hsum]
      simpa using hlast
    · rw [hp, List.length_dropLast]; omega

end Sys2Proof
end

