-- ==== Sys2Proof/Laws/Memory.lean ====
section
/-! SUPPORT. The accumulator: read after write, the canonical form kept, equal reads of equal memories. -/

namespace Sys2Proof.Machine

@[simp] theorem Memory.read_nil (i : Nat) : Memory.read [] i = Memory.unlisted := rfl

theorem Memory.read_cons (c : Host.Cell) (m : Memory) (i : Nat) :
    Memory.read (c :: m) i = if c.1 = i then c.2 else Memory.read m i := rfl

/-- A cell below every listed one reads as unlisted. -/
theorem Memory.read_eq_unlisted {m : Memory} {i : Nat} (h : ∀ c ∈ m, i ≠ c.1) :
    Memory.read m i = Memory.unlisted := by
  induction m with
  | nil => rfl
  | cons c m ih =>
    rw [Memory.read_cons, if_neg (Ne.symm (h c (by simp)))]
    exact ih fun d hd => h d (by simp [hd])

theorem Memory.read_put {i : Nat} {b : Byte} {m : Memory} (h : Memory.read m i = Memory.unlisted)
    (j : Nat) : Memory.read (Memory.put i b m) j = if j = i then b else Memory.read m j := by
  unfold Memory.put
  by_cases hb : b = Memory.unlisted
  · by_cases hj : j = i
    · simp [hb, hj, h]
    · simp [hb, hj]
  · by_cases hj : j = i
    · simp [hb, hj, Memory.read_cons]
    · simp [hb, hj, Memory.read_cons, Ne.symm hj]

/-- Read after write: the written cell reads as the byte, every other cell as before. -/
theorem Memory.read_write {m : Memory} (hm : m.Pairwise (fun a b => a.1 < b.1)) (i : Nat) (b : Byte) (j : Nat) :
    Memory.read (Memory.write m i b) j = if j = i then b else Memory.read m j := by
  induction m with
  | nil => exact Memory.read_put rfl j
  | cons c m ih =>
    have hlt := (List.pairwise_cons.mp hm).1
    have htl := (List.pairwise_cons.mp hm).2
    simp only [Memory.write]
    by_cases h1 : i < c.1
    · rw [if_pos h1]
      refine Memory.read_put (Memory.read_eq_unlisted ?_) j
      intro d hd
      rcases List.mem_cons.mp hd with rfl | hd
      · omega
      · have := hlt d hd; omega
    rw [if_neg h1]
    by_cases h2 : i = c.1
    · rw [if_pos h2, Memory.read_put (Memory.read_eq_unlisted ?_) j]
      · by_cases hj : j = i
        · simp [hj]
        · rw [if_neg hj, if_neg hj, Memory.read_cons, if_neg (by omega)]
      · intro d hd; have := hlt d hd; omega
    · rw [if_neg h2, Memory.read_cons, ih htl, Memory.read_cons]
      by_cases hc : c.1 = j
      · rw [if_pos hc, if_pos hc, if_neg (by omega)]
      · rw [if_neg hc, if_neg hc]

/-- The cells of a write are the old ones and the written one. -/
theorem Memory.mem_write {m : Memory} {i : Nat} {b : Byte} {c : Host.Cell} (h : c ∈ Memory.write m i b) :
    c ∈ m ∨ (c = (i, b) ∧ b ≠ Memory.unlisted) := by
  have put : ∀ {r : Memory}, c ∈ Memory.put i b r → c ∈ r ∨ (c = (i, b) ∧ b ≠ Memory.unlisted) := by
    intro r hr
    unfold Memory.put at hr
    split_ifs at hr with hb
    · exact Or.inl hr
    · rcases List.mem_cons.mp hr with rfl | hr
      · exact Or.inr ⟨rfl, hb⟩
      · exact Or.inl hr
  induction m with
  | nil => exact put h
  | cons d m ih =>
    simp only [Memory.write] at h
    split_ifs at h with h1 h2
    · exact put h
    · rcases put h with h | h
      · exact Or.inl (by simp [h])
      · exact Or.inr h
    · rcases List.mem_cons.mp h with rfl | h
      · exact Or.inl (by simp)
      · rcases ih h with h | h
        · exact Or.inl (by simp [h])
        · exact Or.inr h

/-- A write keeps the canonical form. -/
theorem Memory.write_wf {m : Memory} (hm : Memory.wf m) {i : Nat} (hi : i < 255) (b : Byte) :
    Memory.wf (Memory.write m i b) := by
  refine ⟨?_, ?_⟩
  · obtain ⟨hp, -⟩ := hm
    have put : ∀ {r : Memory}, r.Pairwise (fun a b => a.1 < b.1) → (∀ c ∈ r, i < c.1) →
        (Memory.put i b r).Pairwise (fun a b => a.1 < b.1) := by
      intro r hr hlt
      unfold Memory.put
      split_ifs
      · exact hr
      · exact List.pairwise_cons.mpr ⟨hlt, hr⟩
    induction m with
    | nil => exact put List.Pairwise.nil (by simp)
    | cons d m ih =>
      have hlt := (List.pairwise_cons.mp hp).1
      have htl := (List.pairwise_cons.mp hp).2
      simp only [Memory.write]
      split_ifs with h1 h2
      · refine put hp ?_
        intro c hc
        rcases List.mem_cons.mp hc with rfl | hc
        · exact h1
        · exact lt_trans h1 (hlt c hc)
      · exact put htl fun c hc => h2 ▸ hlt c hc
      · refine List.pairwise_cons.mpr ⟨?_, ih htl⟩
        intro c hc
        rcases Memory.mem_write hc with hc | ⟨rfl, -⟩
        · exact hlt c hc
        · show d.1 < i
          omega
  · intro c hc
    rcases Memory.mem_write hc with hc | ⟨rfl, hb⟩
    · exact hm.2 c hc
    · exact ⟨hi, hb⟩

theorem Memory.wf_nil : Memory.wf [] := by simp [Memory.wf]

@[simp] theorem Memory.readRange_length (m : Memory) (i n : Nat) : (Memory.readRange m i n).length = n := by
  simp [Memory.readRange]

theorem Memory.readRange_getElem? (m : Memory) (i n k : Nat) :
    (Memory.readRange m i n)[k]? = if k < n then some (Memory.read m (i + k)) else none := by
  by_cases h : k < n
  · simp [Memory.readRange, h]
  · simp [Memory.readRange, h]

/-- One byte more of a range. -/
theorem Memory.readRange_succ (m : Memory) (i n : Nat) :
    Memory.readRange m i (n + 1) = Memory.readRange m i n ++ [Memory.read m (i + n)] := by
  simp [Memory.readRange, List.range_succ]

/-- A write outside a range leaves the range as it was. -/
theorem Memory.readRange_write_of_le {m : Memory} (hm : m.Pairwise (fun a b => a.1 < b.1)) {i j n : Nat} (b : Byte)
    (h : i + n ≤ j) : Memory.readRange (Memory.write m j b) i n = Memory.readRange m i n := by
  unfold Memory.readRange
  refine List.map_congr_left fun k hk => ?_
  rw [Memory.read_write hm, if_neg]
  have := List.mem_range.mp hk
  omega

end Sys2Proof.Machine
end

