-- ==== Sys2Proof/Laws/State.lean ====
section
/-! SUPPORT. One lemma per field for each named update of the state, all by rfl. -/

namespace Sys2Proof.Machine

/-! ### memWrite -/
@[simp] theorem State.memWrite_cfg (s : State) (i : Fin 255) (b : Byte) : (s.memWrite i b).cfg = s.cfg := rfl
@[simp] theorem State.memWrite_seq (s : State) (i : Fin 255) (b : Byte) : (s.memWrite i b).seq = s.seq := rfl
@[simp] theorem State.memWrite_reg (s : State) (i : Fin 255) (b : Byte) : (s.memWrite i b).reg = s.reg := rfl
@[simp] theorem State.memWrite_io (s : State) (i : Fin 255) (b : Byte) : (s.memWrite i b).io = s.io := rfl
@[simp] theorem State.memWrite_count (s : State) (i : Fin 255) (b : Byte) : (s.memWrite i b).rx.count = s.rx.count := rfl
@[simp] theorem State.memWrite_len (s : State) (i : Fin 255) (b : Byte) : (s.memWrite i b).rx.len = s.rx.len := rfl
@[simp] theorem State.memWrite_buf (s : State) (i : Fin 255) (b : Byte) :
    (s.memWrite i b).rx.buf = s.rx.buf.write i.val b := rfl

/-! ### rxEmpty -/
@[simp] theorem State.rxEmpty_cfg (s : State) : s.rxEmpty.cfg = s.cfg := rfl
@[simp] theorem State.rxEmpty_seq (s : State) : s.rxEmpty.seq = s.seq := rfl
@[simp] theorem State.rxEmpty_reg (s : State) : s.rxEmpty.reg = s.reg := rfl
@[simp] theorem State.rxEmpty_io (s : State) : s.rxEmpty.io = s.io := rfl
@[simp] theorem State.rxEmpty_count (s : State) : s.rxEmpty.rx.count = 0 := rfl
@[simp] theorem State.rxEmpty_len (s : State) : s.rxEmpty.rx.len = 0 := rfl
@[simp] theorem State.rxEmpty_buf (s : State) : s.rxEmpty.rx.buf = s.rx.buf := rfl

/-! ### finish, raise -/
@[simp] theorem State.finish_cfg (s : State) (r : Result) : (s.finish r).cfg = s.cfg := rfl
@[simp] theorem State.finish_rx (s : State) (r : Result) : (s.finish r).rx = s.rx := rfl
@[simp] theorem State.finish_reg (s : State) (r : Result) : (s.finish r).reg = s.reg := rfl
@[simp] theorem State.finish_io (s : State) (r : Result) : (s.finish r).io = s.io := rfl
@[simp] theorem State.finish_state (s : State) (r : Result) : (s.finish r).seq.state = .done := rfl
@[simp] theorem State.finish_result (s : State) (r : Result) : (s.finish r).seq.result = r := rfl
@[simp] theorem State.finish_kind (s : State) (r : Result) : (s.finish r).seq.kind = s.seq.kind := rfl
@[simp] theorem State.finish_frame (s : State) (r : Result) : (s.finish r).seq.frame = s.seq.frame := rfl
@[simp] theorem State.finish_polls (s : State) (r : Result) : (s.finish r).seq.polls = s.seq.polls := rfl
@[simp] theorem State.finish_value (s : State) (r : Result) : (s.finish r).seq.value = s.seq.value := rfl
@[simp] theorem State.raise_eq_finish (s : State) (r : Result) : s.raise r = s.finish r := rfl

/-! ### collect -/
@[simp] theorem State.collect_cfg (s : State) : s.collect.cfg = s.cfg := rfl
@[simp] theorem State.collect_rx (s : State) : s.collect.rx = s.rx := rfl
@[simp] theorem State.collect_io (s : State) : s.collect.io = s.io := rfl
@[simp] theorem State.collect_seq (s : State) : s.collect.seq = { s.seq with state := .free } := rfl
@[simp] theorem State.collect_reg (s : State) : s.collect.reg = { s.reg with lastResult := s.seq.result } := rfl

/-! ### toPhase -/
@[simp] theorem State.toPhase_cfg (s : State) (p : Phase) : (s.toPhase p).cfg = s.cfg := rfl
@[simp] theorem State.toPhase_rx (s : State) (p : Phase) : (s.toPhase p).rx = s.rx := rfl
@[simp] theorem State.toPhase_seq (s : State) (p : Phase) : (s.toPhase p).seq = s.seq := rfl
@[simp] theorem State.toPhase_io (s : State) (p : Phase) : (s.toPhase p).io = s.io := rfl
@[simp] theorem State.toPhase_reg (s : State) (p : Phase) : (s.toPhase p).reg = { s.reg with phase := p } := rfl

/-! ### blockReset -/
@[simp] theorem State.blockReset_cfg (s : State) : s.blockReset.cfg = s.cfg := rfl
@[simp] theorem State.blockReset_rx (s : State) : s.blockReset.rx = RxRegs.reset := rfl
@[simp] theorem State.blockReset_seq (s : State) : s.blockReset.seq = SeqRegs.reset := rfl
@[simp] theorem State.blockReset_reg (s : State) : s.blockReset.reg = RegRegs.reset s.cfg.initSteps := rfl
@[simp] theorem State.blockReset_io (s : State) : s.blockReset.io = s.io := rfl

/-! ### turnFirst, placeAt -/
@[simp] theorem State.turnFirst_schedule (s : State) (t : Turn) :
    (s.turnFirst t).io.schedule = t :: s.io.schedule := rfl
@[simp] theorem State.turnFirst_cfg (s : State) (t : Turn) : (s.turnFirst t).cfg = s.cfg := rfl
@[simp] theorem State.turnFirst_rx (s : State) (t : Turn) : (s.turnFirst t).rx = s.rx := rfl
@[simp] theorem State.turnFirst_seq (s : State) (t : Turn) : (s.turnFirst t).seq = s.seq := rfl
@[simp] theorem State.turnFirst_reg (s : State) (t : Turn) : (s.turnFirst t).reg = s.reg := rfl
@[simp] theorem State.placeAt_state (s : State) (r : RegState) (p : Phase) (q : SeqState) :
    (s.placeAt r p q).reg.state = r := rfl
@[simp] theorem State.placeAt_phase (s : State) (r : RegState) (p : Phase) (q : SeqState) :
    (s.placeAt r p q).reg.phase = p := rfl
@[simp] theorem State.placeAt_seqState (s : State) (r : RegState) (p : Phase) (q : SeqState) :
    (s.placeAt r p q).seq.state = q := rfl

/-! ### resetWith -/
@[simp] theorem State.resetWith_cfg (p : Params) : (State.resetWith p).cfg = p := rfl
@[simp] theorem State.resetWith_rx (p : Params) : (State.resetWith p).rx = RxRegs.reset := rfl
@[simp] theorem State.resetWith_seq (p : Params) : (State.resetWith p).seq = SeqRegs.reset := rfl
@[simp] theorem State.resetWith_reg (p : Params) : (State.resetWith p).reg = RegRegs.reset p.initSteps := rfl
@[simp] theorem State.resetWith_io (p : Params) : (State.resetWith p).io = Io.reset := rfl

end Sys2Proof.Machine
end

