-- ==== Sys2Proof/Laws/Ops.lean ====
section
/-! SUPPORT. One lemma for each shared operation that says everything it does; later proofs cite these. -/

namespace Sys2Proof.Machine

/-! ### Outcomes -/

/-- A guarded operation ends in a next state exactly where its guard holds, and then in its effect. -/
theorem whenEnabled_eq_next {p : Bool} {t u : State} : whenEnabled p t = .next u ↔ p = true ∧ t = u := by
  cases p <;> simp [whenEnabled]

@[simp] theorem whenEnabled_true (t : State) : whenEnabled true t = .next t := rfl

@[simp] theorem whenEnabled_false (t : State) : whenEnabled false t = .refused .notEnabled := rfl

/-! ### TRANSPORT and TIMEBASE -/

/-- A read attempt uses up one answer and changes nothing else. -/
theorem State.transportRead_state (s : State) : s.transportRead.2 =
    { s with io := { s.io with readAnswers := s.io.readAnswers.tail, reads := s.io.reads + 1 } } := by
  unfold State.transportRead
  split <;> simp_all

/-- The answer of a read: the first given one, else the free function's. -/
theorem State.transportRead_answer (s : State) : s.transportRead.1 =
    s.io.readAnswers.head?.getD (Config.readAnswer s.io.reads s.io.txLog) := by
  unfold State.transportRead
  split <;> simp_all

/-- A write answers the next write answer, uses it up, and logs the list with it. -/
theorem State.transportWrite_eq (s : State) (l : List Byte) : s.transportWrite l = (s.nextWriteAnswer,
    { s with io := { s.io with
      writeAnswers := s.io.writeAnswers.tail, writes := s.io.writes + 1
      txLog := s.io.txLog ++ [⟨l, s.nextWriteAnswer⟩] } }) := rfl

/-- Every write appends its list to the TX stream, whatever its answer (R63). -/
@[simp] theorem State.transportWrite_txStream (s : State) (l : List Byte) :
    (s.transportWrite l).2.io.txStream = s.io.txStream ++ l := by
  simp [Io.txStream, State.transportWrite_eq]

/-- A write appends its list to the accepted bytes where it is answered ok, else nothing (V76). -/
@[simp] theorem State.transportWrite_txAccepted (s : State) (l : List Byte) : (s.transportWrite l).2.io.txAccepted =
    s.io.txAccepted ++ (if s.nextWriteAnswer = .ok then l else []) := by
  cases h : s.nextWriteAnswer <;> simp [Io.txAccepted, State.transportWrite_eq, h]

/-- Reading the timebase uses up one given time and changes nothing else. -/
theorem State.now_state (s : State) : s.now.2 =
    { s with io := { s.io with times := s.io.times.tail, nows := s.io.nows + 1 } } := by
  unfold State.now
  split <;> simp_all

/-- The timebase has TIME_W bits. -/
theorem State.now_lt (s : State) : s.now.1 < 2 ^ s.cfg.timeW := by
  unfold State.now
  split <;> exact Nat.mod_lt _ (Nat.two_pow_pos _)

/-! ### SEQ_BEGIN -/

/-- Every request fits a frame. -/
theorem Request.payload_length_le (q : Request) : q.payload.length ≤ 3 := by
  cases q <;> simp [Request.payload]

/-- SEQ_BEGIN of a request whose arguments pass: the frame is encoded and awaits its write. -/
theorem seqBegin_valid {q : Request} (h : q.valid = true) (s : State) : seqBegin q s =
    { s with seq := { s.seq with
      kind := q.kind, frame := frameBytes q.kind.tag q.payload, state := .write } } := by
  have hp : ¬ Config.maxPayload < q.payload.length := by
    have := q.payload_length_le
    simp only [Config.maxPayload]
    omega
  simp [seqBegin, h, codecEncode, hp]

/-- SEQ_BEGIN with a byte that is no direction: InvalidDirection, and no frame. -/
theorem seqBegin_invalid {q : Request} (h : q.valid = false) (s : State) : seqBegin q s =
    { s with seq := { s.seq with kind := q.kind, result := .invalidDirection, state := .done } } := by
  simp [seqBegin, h, State.finish]

/-- SEQ_BEGIN touches the sequencer alone. -/
theorem seqBegin_frame (q : Request) (s : State) : ∃ r : SeqRegs, seqBegin q s = { s with seq := r } := by
  cases h : q.valid
  · exact ⟨_, seqBegin_invalid h s⟩
  · exact ⟨_, seqBegin_valid h s⟩

/-! ### The hand-over -/

/-- A frame that matches ends the wait with Ok; any other changes nothing. -/
theorem deliver_cases (f : Frame) (s : State) :
    (s.seq.kind.matchesReply f = true ∧ deliver f s = { s with seq := { s.seq with
        value := if s.seq.kind = .flow then pulseCount (f.payload.getD 0 0) (f.payload.getD 1 0) else s.seq.value
        result := .ok, state := .done } })
      ∨ (s.seq.kind.matchesReply f = false ∧ deliver f s = s) := by
  cases h : s.seq.kind.matchesReply f
  · exact Or.inr ⟨rfl, by simp [deliver, h]⟩
  · refine Or.inl ⟨rfl, ?_⟩
    rw [deliver, if_pos h]
    by_cases hk : s.seq.kind = .flow
    · rw [if_pos hk, if_pos hk]; rfl
    · rw [if_neg hk, if_neg hk]; rfl

/-- The hand-over touches the sequencer alone. -/
theorem handOver_frame (p : State × Option Frame) : ∃ r : SeqRegs, handOver p = { p.1 with seq := r } := by
  obtain ⟨s, _ | f⟩ := p
  · exact ⟨s.seq, rfl⟩
  · rcases deliver_cases f s with ⟨-, h⟩ | ⟨-, h⟩
    · exact ⟨_, h⟩
    · exact ⟨s.seq, h⟩

/-- What the hand-over does to a waiting sequencer. -/
theorem handOver_cases (p : State × Option Frame) : handOver p = p.1
    ∨ (∃ v, handOver p = { p.1 with seq := { p.1.seq with value := v, result := .ok, state := .done } }) := by
  obtain ⟨s, _ | f⟩ := p
  · exact Or.inl rfl
  · rcases deliver_cases f s with ⟨-, h⟩ | ⟨-, h⟩
    · exact Or.inr ⟨_, h⟩
    · exact Or.inl h

/-! ### The receiver -/

@[simp] theorem rxNext_val {c : Fin 255} (h : c.val < 254) : (rxNext c).val = c.val + 1 := by
  simp only [rxNext, Fin.val_ofNat]
  exact Nat.mod_eq_of_lt (by omega)

/-- RX_LAST empties the receiver and stores the byte. -/
theorem rxLastOp_state (b : Byte) (s : State) : (rxLastOp b s).1 =
    { s with rx := { count := 0, len := 0, buf := s.rx.buf.write s.rx.count.val b } } := by
  simp only [rxLastOp]
  split <;> rfl

/-- A byte touches the receiver alone. -/
theorem rxByte_frame (b : Byte) (s : State) : ∃ r : RxRegs, (rxByte b s).1 = { s with rx := r } := by
  unfold rxByte
  split
  · exact ⟨_, rfl⟩
  · exact ⟨s.rx, rfl⟩
  · exact ⟨_, rfl⟩
  · exact ⟨_, rfl⟩
  · exact ⟨_, rfl⟩
  · exact ⟨_, rxLastOp_state b s⟩

/-- The six cases of the selection (R105). -/
theorem rxClass_cases (c : Fin 255) (l b : Byte) :
    (rxClass c l b = .start ∧ c.val = 0 ∧ b = Config.startByte)
      ∨ (rxClass c l b = .drop ∧ c.val = 0 ∧ b ≠ Config.startByte)
      ∨ (rxClass c l b = .badLen ∧ c.val = 1 ∧ b.toNat < 4)
      ∨ (rxClass c l b = .len ∧ c.val = 1 ∧ 4 ≤ b.toNat)
      ∨ (rxClass c l b = .data ∧ 2 ≤ c.val ∧ c.val + 1 < l.toNat)
      ∨ (rxClass c l b = .last ∧ 2 ≤ c.val ∧ l.toNat ≤ c.val + 1) := by
  unfold rxClass
  by_cases h0 : c.val = 0
  · by_cases hb : b = Config.startByte
    · exact Or.inl ⟨by rw [if_pos h0, if_pos hb], h0, hb⟩
    · exact Or.inr (Or.inl ⟨by rw [if_pos h0, if_neg hb], h0, hb⟩)
  refine Or.inr (Or.inr ?_)
  rw [if_neg h0]
  by_cases h1 : c.val = 1
  · rw [if_pos h1]
    by_cases hb : b.toNat < 4
    · exact Or.inl ⟨if_pos hb, h1, hb⟩
    · exact Or.inr (Or.inl ⟨if_neg hb, h1, by omega⟩)
  refine Or.inr (Or.inr ?_)
  rw [if_neg h1]
  by_cases hl : c.val + 1 < l.toNat
  · exact Or.inl ⟨if_pos hl, by omega, hl⟩
  · exact Or.inr ⟨if_neg hl, by omega, by omega⟩

/-! ### The outcome of exec: every operation goes on or is not enabled -/

/-- SEQ_WRITE, both answers (R172). -/
theorem seqWriteOp_cases (s : State) :
    (s.nextWriteAnswer = .ok ∧ seqWriteOp s = { s with
        seq := { s.seq with polls := 0, state := .wait }
        rx := if s.cfg.rxClearOnWait then { s.rx with count := 0, len := 0 } else s.rx
        io := { s.io with
          writeAnswers := s.io.writeAnswers.tail, writes := s.io.writes + 1
          txLog := s.io.txLog ++ [⟨s.seq.frame, .ok⟩] } })
      ∨ (s.nextWriteAnswer = .error ∧ seqWriteOp s = { s with
        seq := { s.seq with result := .transportError, state := .done }
        io := { s.io with
          writeAnswers := s.io.writeAnswers.tail, writes := s.io.writes + 1
          txLog := s.io.txLog ++ [⟨s.seq.frame, .error⟩] } }) := by
  cases h : s.nextWriteAnswer
  · refine Or.inl ⟨rfl, ?_⟩
    by_cases hc : s.cfg.rxClearOnWait = true <;>
      simp [seqWriteOp, State.transportWrite, h, hc, State.rxEmpty]
  · exact Or.inr ⟨rfl, by simp [seqWriteOp, State.transportWrite, h, State.finish]⟩

/-- The state in which a poll's answer is dealt with: the poll counted, the answer used up. -/
def afterRead (s : State) : State :=
  { s with
    seq := { s.seq with polls := s.seq.polls + 1 }
    io := { s.io with readAnswers := s.io.readAnswers.tail, reads := s.io.reads + 1 } }

@[simp] theorem afterRead_cfg (s : State) : (afterRead s).cfg = s.cfg := rfl
@[simp] theorem afterRead_rx (s : State) : (afterRead s).rx = s.rx := rfl
@[simp] theorem afterRead_reg (s : State) : (afterRead s).reg = s.reg := rfl
@[simp] theorem afterRead_seq (s : State) : (afterRead s).seq = { s.seq with polls := s.seq.polls + 1 } := rfl

/-- SEQ_POLL, every case (R173). -/
theorem seqPollOp_cases (s : State) :
    (s.cfg.maxPolls ≤ s.seq.polls ∧ seqPollOp s = s.finish .noResponse)
      ∨ (s.seq.polls < s.cfg.maxPolls ∧ s.transportRead.1 = .error
          ∧ seqPollOp s = (afterRead s).finish .transportError)
      ∨ (s.seq.polls < s.cfg.maxPolls ∧ s.transportRead.1 = .noData ∧ seqPollOp s = afterRead s)
      ∨ (s.seq.polls < s.cfg.maxPolls ∧ ∃ b, s.transportRead.1 = .byte b
          ∧ seqPollOp s = handOver (rxByte b (afterRead s))) := by
  by_cases hb : s.cfg.maxPolls ≤ s.seq.polls
  · exact Or.inl ⟨hb, by simp [seqPollOp, hb]⟩
  · refine Or.inr ?_
    have hlt : s.seq.polls < s.cfg.maxPolls := by omega
    let s1 : State := { s with seq := { s.seq with polls := s.seq.polls + 1 } }
    have ha : s1.transportRead.1 = s.transportRead.1 := by
      simp [State.transportRead_answer, s1]
    have hs : s1.transportRead.2 = afterRead s := by
      rw [State.transportRead_state]; rfl
    have hop : seqPollOp s = match s1.transportRead with
        | (.error, s2) => s2.raise .transportError
        | (.noData, s2) => s2
        | (.byte b, s2) => handOver (rxByte b s2) := by
      simp only [seqPollOp, if_neg hb]; rfl
    have hpair : s1.transportRead = (s.transportRead.1, afterRead s) := by
      rw [← ha, ← hs]
    rw [hop, hpair]
    cases hr : s.transportRead.1 with
    | error => exact Or.inl ⟨hlt, rfl, rfl⟩
    | noData => exact Or.inr (Or.inl ⟨hlt, rfl, rfl⟩)
    | byte b => exact Or.inr (Or.inr ⟨hlt, b, rfl, rfl⟩)

end Sys2Proof.Machine
end

