-- ==== Sys2Proof/Laws/PerInstr.lean ====
section
/-! SUPPORT. One family of facts about every operation, a lemma for each constructor: a frame it is encoded as is 4 to
255 bytes long and says so in its length byte (R90, R91). -/

namespace Sys2Proof.Laws

/-- A well-formed operation that is encoded as a frame has one of 4 to 255 bytes, whose byte 1 is their number. -/
def EncodedLength.Statement (i : Instr) : Prop :=
  i.wellFormed = true → ∀ side bytes, encode i = .frame side bytes →
    4 ≤ bytes.length ∧ bytes.length ≤ 255 ∧ bytes[1]?.map BitVec.toNat = some bytes.length

/-- The frame of a payload that fits. -/
theorem EncodedLength.ofFits {i : Instr} {side : LinkSide} {c : Byte} {p : List Byte}
    (he : encode i = .frame side (frameBytes c p)) (hp : p.length ≤ 251) : EncodedLength.Statement i := by
  intro _ side' bytes h
  rw [he] at h
  cases h
  rw [(codecValidate_frameBytes_take hp).1, frameBytes_length]
  exact ⟨by omega, by omega, rfl⟩

theorem EncodedLength.motor (d s m : Byte) : EncodedLength.Statement (.motor d s m) :=
  EncodedLength.ofFits rfl (by simp)

theorem EncodedLength.flow : EncodedLength.Statement .flow :=
  EncodedLength.ofFits rfl (by simp)

theorem EncodedLength.test : EncodedLength.Statement .test :=
  EncodedLength.ofFits rfl (by simp)

theorem EncodedLength.flowR (l h : Byte) : EncodedLength.Statement (.flowR l h) :=
  EncodedLength.ofFits rfl (by simp)

theorem EncodedLength.flowBadLen (p : List Byte) : EncodedLength.Statement (.flowBadLen p) := by
  intro h
  refine EncodedLength.ofFits rfl ?_ h
  simp only [Instr.wellFormed, Bool.and_eq_true] at h
  exact payloadFits_iff.mp h.1

theorem EncodedLength.motorR (p : List Byte) : EncodedLength.Statement (.motorR p) := by
  intro h
  refine EncodedLength.ofFits rfl ?_ h
  exact payloadFits_iff.mp h

theorem EncodedLength.testR (p : List Byte) : EncodedLength.Statement (.testR p) := by
  intro h
  refine EncodedLength.ofFits rfl ?_ h
  exact payloadFits_iff.mp h

theorem EncodedLength.frame (t : Byte) (p : List Byte) : EncodedLength.Statement (.frame t p) := by
  intro h
  refine EncodedLength.ofFits rfl ?_ h
  simp only [Instr.wellFormed, Bool.and_eq_true] at h
  exact payloadFits_iff.mp h.1.1.1

theorem EncodedLength.rxStart : EncodedLength.Statement .rxStart := by
  intro _ _ _ h
  cases h

theorem EncodedLength.rxDrop (b : Byte) : EncodedLength.Statement (.rxDrop b) := by
  intro _ _ _ h
  cases h

theorem EncodedLength.rxBadLen (b : Byte) : EncodedLength.Statement (.rxBadLen b) := by
  intro _ _ _ h
  cases h

theorem EncodedLength.rxLen (b : Byte) : EncodedLength.Statement (.rxLen b) := by
  intro _ _ _ h
  cases h

theorem EncodedLength.rxData (b : Byte) : EncodedLength.Statement (.rxData b) := by
  intro _ _ _ h
  cases h

theorem EncodedLength.rxLast (b : Byte) : EncodedLength.Statement (.rxLast b) := by
  intro _ _ _ h
  cases h

theorem EncodedLength.setTarget (v : Half) : EncodedLength.Statement (.setTarget v) := by
  intro _ _ _ h
  cases h

theorem EncodedLength.start : EncodedLength.Statement .start := by
  intro _ _ _ h
  cases h

theorem EncodedLength.stop : EncodedLength.Statement .stop := by
  intro _ _ _ h
  cases h

theorem EncodedLength.fullyOpen : EncodedLength.Statement .fullyOpen := by
  intro _ _ _ h
  cases h

theorem EncodedLength.fullyClose : EncodedLength.Statement .fullyClose := by
  intro _ _ _ h
  cases h

theorem EncodedLength.testOp : EncodedLength.Statement .testOp := by
  intro _ _ _ h
  cases h

theorem EncodedLength.reservedOp0 : EncodedLength.Statement .reservedOp0 := by
  intro _ _ _ h
  cases h

theorem EncodedLength.reservedOp67 (op : BitVec 3) : EncodedLength.Statement (.reservedOp67 op) := by
  intro _ _ _ h
  cases h

theorem EncodedLength.writeIgnored23 (idx : BitVec 3) : EncodedLength.Statement (.writeIgnored23 idx) := by
  intro _ _ _ h
  cases h

theorem EncodedLength.writeIgnored47 (idx : BitVec 3) : EncodedLength.Statement (.writeIgnored47 idx) := by
  intro _ _ _ h
  cases h

theorem EncodedLength.hostRead (idx : BitVec 3) : EncodedLength.Statement (.hostRead idx) := by
  intro _ _ _ h
  cases h

theorem EncodedLength.seqWrite : EncodedLength.Statement .seqWrite := by
  intro _ _ _ h
  cases h

theorem EncodedLength.seqPoll : EncodedLength.Statement .seqPoll := by
  intro _ _ _ h
  cases h

theorem EncodedLength.cyTop : EncodedLength.Statement .cyTop := by
  intro _ _ _ h
  cases h

theorem EncodedLength.cySample : EncodedLength.Statement .cySample := by
  intro _ _ _ h
  cases h

theorem EncodedLength.cyAck : EncodedLength.Statement .cyAck := by
  intro _ _ _ h
  cases h

theorem EncodedLength.cyWake : EncodedLength.Statement .cyWake := by
  intro _ _ _ h
  cases h

theorem EncodedLength.osMove : EncodedLength.Statement .osMove := by
  intro _ _ _ h
  cases h

theorem EncodedLength.osEnd : EncodedLength.Statement .osEnd := by
  intro _ _ _ h
  cases h

theorem EncodedLength.osNext : EncodedLength.Statement .osNext := by
  intro _ _ _ h
  cases h

theorem EncodedLength.testDone : EncodedLength.Statement .testDone := by
  intro _ _ _ h
  cases h

end Sys2Proof.Laws
end

