-- ==== Sys2Proof/Laws/Receiver.lean ====
section
/-! SUPPORT. The receiver over whole streams: it reads its own registers alone, keeps their invariant, and what a
header, the data bytes after it, and bytes outside a frame do to it. -/

namespace Sys2Proof.Machine

/-! ### The accumulator and the frame it holds -/

/-- The bytes up to a cell just written are those before it and the new one. -/
theorem Memory.readRange_write_end {m : Memory} (hm : m.wf) (n : Nat) (b : Byte) :
    (m.write n b).readRange 0 (n + 1) = m.readRange 0 n ++ [b] := by
  rw [Memory.readRange_succ, Memory.readRange_write_of_le hm.1 b (by omega), Memory.read_write hm.1]
  simp

/-- Where the accumulator holds an encoded frame, its command and payload stand in their places (R67). -/
theorem Memory.frame_of_readRange {m : Memory} {l : Nat} {c : Byte} {p : List Byte}
    (h : m.readRange 0 l = frameBytes c p) : m.read 2 = c ∧ m.readRange 3 (l - 4) = p := by
  have hlen : l = p.length + 4 := by simpa using congrArg List.length h
  constructor
  · have h2 := congrArg (·[2]?) h
    simp only [Memory.readRange_getElem?] at h2
    rw [if_pos (by omega)] at h2
    simpa [frameBytes, frameBody] using h2
  · apply List.ext_getElem?
    intro k
    rw [Memory.readRange_getElem?]
    split
    · have hk := congrArg (·[k + 3]?) h
      simp only [Memory.readRange_getElem?] at hk
      rw [if_pos (by omega)] at hk
      simp only [frameBytes, frameBody, List.cons_append, List.getElem?_cons_succ] at hk
      rw [List.getElem?_append_left (by omega)] at hk
      rw [← hk, Nat.add_comm]
      simp
    · rw [List.getElem?_eq_none (by omega)]

/-! ### One byte -/

/-- What a byte does depends on the receiver's registers alone. -/
theorem rxByte_congr (b : Byte) {s t : State} (h : s.rx = t.rx) :
    (rxByte b s).1.rx = (rxByte b t).1.rx ∧ (rxByte b s).2 = (rxByte b t).2 := by
  have hl : (rxLastOp b s).2 = (rxLastOp b t).2 := by
    simp only [rxLastOp, State.memWrite_buf, h]
    by_cases hv : codecValidate ((t.rx.buf.write t.rx.count.val b).readRange 0 t.rx.len.toNat) t.rx.len.toNat = true <;>
      simp [hv]
  unfold rxByte
  rw [h]
  split <;> simp [rxStartOp, rxDropOp, rxBadLenOp, rxLenOp, rxDataOp, h, rxLastOp_state, State.memWrite,
    State.rxEmpty, hl]

/-- Every byte keeps the receiver's invariant (R40 item 2). -/
theorem rxByte_keeps_RxInv (b : Byte) {s : State} (h : RxInv s.rx) : RxInv (rxByte b s).1.rx := by
  have hw : ∀ i : Fin 255, (s.rx.buf.write i.val b).wf := fun i => Memory.write_wf h.canonical i.isLt _
  rcases rxClass_cases s.rx.count s.rx.len b with hc | hc | hc | hc | hc | hc <;> simp only [rxByte, hc.1]
  · obtain ⟨_, h0, rfl⟩ := hc
    refine ⟨?_, ?_, ?_, hw 0⟩ <;> simp [rxStartOp]
    refine ⟨h.seeking h0, ?_⟩
    simpa using Memory.read_write h.canonical.1 0 Config.startByte 0
  · exact h
  · refine ⟨?_, ?_, ?_, hw 1⟩ <;> simp [rxBadLenOp]
  · obtain ⟨_, h1, hl⟩ := hc
    refine ⟨?_, ?_, ?_, hw 1⟩ <;> simp [rxLenOp]
    have h2 : (s.rx.buf.write 1 b).read 0 = Config.startByte := by
      rw [Memory.read_write h.canonical.1]
      exact (h.pending h1).2
    have h3 : (s.rx.buf.write 1 b).read 1 = b := by
      rw [Memory.read_write h.canonical.1]
      rfl
    exact ⟨hl, by omega, h2, h3⟩
  · obtain ⟨_, h2, hl⟩ := hc
    have hlt := s.rx.len.isLt
    have hn : (rxNext s.rx.count).val = s.rx.count.val + 1 := rxNext_val (by omega)
    obtain ⟨a1, -, a3, a4⟩ := h.accumulating h2
    refine ⟨?_, ?_, ?_, hw _⟩ <;> simp only [rxDataOp, State.memWrite_len, State.memWrite_buf, hn] <;> try omega
    intro _
    refine ⟨a1, hl, ?_, ?_⟩ <;> rw [Memory.read_write h.canonical.1, if_neg (by omega)] <;> assumption
  · rw [rxLastOp_state]
    refine ⟨?_, ?_, ?_, hw _⟩ <;> simp

/-! ### Streams -/

/-- A stream is fed piece by piece. -/
theorem rxFeed_append (a b : List Byte) (s : State) : rxFeed (a ++ b) s =
    ((rxFeed b (rxFeed a s).1).1, (rxFeed a s).2 ++ (rxFeed b (rxFeed a s).1).2) := by
  induction a generalizing s with
  | nil => simp [rxFeed]
  | cons x a ih => simp [rxFeed, ih]

/-- What a stream does depends on the receiver's registers alone. -/
theorem rxFeed_congr (l : List Byte) {s t : State} (h : s.rx = t.rx) :
    (rxFeed l s).1.rx = (rxFeed l t).1.rx ∧ (rxFeed l s).2 = (rxFeed l t).2 := by
  induction l generalizing s t with
  | nil => exact ⟨h, rfl⟩
  | cons b l ih =>
    obtain ⟨h1, h2⟩ := rxByte_congr b h
    obtain ⟨h3, h4⟩ := ih h1
    exact ⟨h3, by simp only [rxFeed]; rw [h2, h4]⟩

/-- In Seeking, bytes without a start byte change nothing (R142). -/
theorem rxFeed_garbage {l : List Byte} {s : State} (h : s.rx.count.val = 0) (hn : Config.startByte ∉ l) :
    rxFeed l s = (s, []) := by
  induction l with
  | nil => rfl
  | cons b l ih =>
    have hb : b ≠ Config.startByte := fun e => hn (by simp [e])
    have hc : rxClass s.rx.count s.rx.len b = .drop := by
      rcases rxClass_cases s.rx.count s.rx.len b with hc | hc | hc | hc | hc | hc <;>
        first | exact hc.1 | omega | exact absurd hc.2.2 hb
    have hx : rxByte b s = (s, none) := by simp [rxByte, hc, rxDropOp]
    simp [rxFeed, hx, ih fun e => hn (List.mem_cons_of_mem _ e)]

/-- From Seeking, a start byte and a legal length begin a capture (R141, R144). -/
theorem rxFeed_header {s : State} {len : Byte} (h0 : s.rx.count.val = 0) (hw : s.rx.buf.wf) (h4 : 4 ≤ len.toNat) :
    ∃ r, rxFeed [Config.startByte, len] s = ({ s with rx := r }, []) ∧ r.count.val = 2 ∧ r.len = len ∧ r.buf.wf
      ∧ r.buf.readRange 0 2 = [Config.startByte, len] := by
  have hb1 : rxByte Config.startByte s = (rxStartOp s, none) := by simp [rxByte, rxClass, h0]
  have hlt : ¬ len.toNat < 4 := by omega
  have hb2 : rxByte len (rxStartOp s) = (rxLenOp len (rxStartOp s), none) := by
    have hc : rxClass (rxStartOp s).rx.count (rxStartOp s).rx.len len = .len := by
      show rxClass 1 _ _ = _
      simp [rxClass, Config.minLen, hlt]
    simp [rxByte, hc]
  have w1 : (s.rx.buf.write 0 Config.startByte).wf := Memory.write_wf hw (by omega) _
  have w2 : ((s.rx.buf.write 0 Config.startByte).write 1 len).wf := Memory.write_wf w1 (by omega) _
  refine ⟨{ count := 2, len := len, buf := (s.rx.buf.write 0 Config.startByte).write 1 len }, ?_, rfl, rfl, w2, ?_⟩
  · have hx : rxFeed [Config.startByte, len] s = (rxLenOp len (rxStartOp s), []) := by
      simp only [rxFeed, hb1, hb2]
      simp
    rw [hx]
    rfl
  · have a : Memory.read ((s.rx.buf.write 0 Config.startByte).write 1 len) 0 = Config.startByte := by
      rw [Memory.read_write w1.1, Memory.read_write hw.1]
      rfl
    have b : Memory.read ((s.rx.buf.write 0 Config.startByte).write 1 len) 1 = len := by
      rw [Memory.read_write w1.1]
      rfl
    simp [Memory.readRange, List.range_succ, a, b]

/-- Bytes short of a capture's end are stored in order, whatever they are, and nothing is emitted (R145). -/
theorem rxFeed_data (l : List Byte) {s : State} (h2 : 2 ≤ s.rx.count.val) (hw : s.rx.buf.wf)
    (hl : s.rx.count.val + l.length < s.rx.len.toNat) :
    ∃ r, rxFeed l s = ({ s with rx := r }, []) ∧ r.count.val = s.rx.count.val + l.length ∧ r.len = s.rx.len ∧ r.buf.wf
      ∧ r.buf.readRange 0 (s.rx.count.val + l.length) = s.rx.buf.readRange 0 s.rx.count.val ++ l := by
  induction l generalizing s with
  | nil => exact ⟨s.rx, by simp [rxFeed], by simp, rfl, hw, by simp⟩
  | cons b l ih =>
    have hlt := s.rx.len.isLt
    simp only [List.length_cons] at hl
    have hc : rxClass s.rx.count s.rx.len b = .data := by
      rcases rxClass_cases s.rx.count s.rx.len b with hc | hc | hc | hc | hc | hc <;> first | exact hc.1 | omega
    have hb : rxByte b s = (rxDataOp b s, none) := by simp [rxByte, hc]
    have hcnt : (rxDataOp b s).rx.count.val = s.rx.count.val + 1 := by
      simp only [rxDataOp]
      exact rxNext_val (by omega)
    have hlen : (rxDataOp b s).rx.len = s.rx.len := rfl
    obtain ⟨r, e1, e2, e3, e4, e5⟩ := ih (s := rxDataOp b s) (by omega) (Memory.write_wf hw s.rx.count.isLt _)
      (by rw [hlen]; omega)
    refine ⟨r, ?_, by simp only [List.length_cons]; omega, e3.trans hlen, e4, ?_⟩
    · simp only [rxFeed, hb, e1]
      rfl
    · have hsum : s.rx.count.val + (b :: l).length = (rxDataOp b s).rx.count.val + l.length := by
        simp only [List.length_cons]; omega
      have hbuf : (rxDataOp b s).rx.buf = s.rx.buf.write s.rx.count.val b := rfl
      rw [hsum, e5, hcnt, hbuf, Memory.readRange_write_end hw]
      simp

end Sys2Proof.Machine
end

