-- ==== Sys2Proof/Laws/Regulator.lean ====
section
/-! SUPPORT. The regulator's arithmetic and its shared steps: directions, elapsed time, the band, the size of a move,
publishing a sample, beginning a move. -/

namespace Sys2Proof.Machine

/-! ### Directions -/

/-- DIR_OPEN, by its parameter (R8). -/
theorem dirOpen_eq (p : Params) : dirOpen p = if p.dirOpen = .forward then 0x46 else 0x42 := by
  rcases p with ⟨_, _, _, _, _, _ | _⟩ <;> rfl

/-- DIR_CLOSE, by its parameter (R8). -/
theorem dirClose_eq (p : Params) : dirClose p = if p.dirOpen = .forward then 0x42 else 0x46 := by
  rcases p with ⟨_, _, _, _, _, _ | _⟩ <;> rfl

/-- The two directions differ (R8). -/
theorem dirOpen_ne_dirClose (p : Params) : dirOpen p ≠ dirClose p := by
  rw [dirOpen_eq, dirClose_eq]
  split <;> decide

@[simp] theorem isDirection_dirOpen (p : Params) : isDirection (dirOpen p) = true := by
  rw [dirOpen_eq]
  split <;> rfl

@[simp] theorem isDirection_dirClose (p : Params) : isDirection (dirClose p) = true := by
  rw [dirClose_eq]
  split <;> rfl

@[simp] theorem isDirection_oneShotDir (s : State) : isDirection (oneShotDir s) = true := by
  unfold oneShotDir
  split <;> simp

/-! ### Time and rate -/

/-- The elapsed time as an integer (R205). -/
theorem elapsed_cast (p : Params) (t last : Nat) :
    ((elapsed p t last : Nat) : Int) = ((t : Int) - (last : Int)) % (2 : Int) ^ p.timeW := by
  have h1 : last % 2 ^ p.timeW < 2 ^ p.timeW := Nat.mod_lt _ (Nat.two_pow_pos _)
  unfold elapsed
  push_cast [Nat.cast_sub h1.le]
  generalize (2 : Int) ^ p.timeW = m
  have hd := Int.emod_add_mul_ediv (last : Int) m
  have e : (t : Int) + (m - (last : Int) % m) = (t - last) + m * (1 + last / m) := by linarith
  rw [e, Int.add_mul_emod_self_left]

/-- The rate is never negative. -/
theorem rate_nonneg (p : Params) (pulses e : Nat) : 0 ≤ rate p pulses e := by
  have := p.cal_nonneg
  unfold rate
  split
  · exact le_rfl
  · positivity

/-! ### The band (R207) -/

theorem tolerance_nonneg (p : Params) (target : Nat) : 0 ≤ tolerance p target :=
  mul_nonneg p.tolFrac_nonneg (by positivity)

theorem bandOf_below_iff (p : Params) (target : Nat) (r : Rat) :
    bandOf p target r = .below ↔ r < (target : Rat) - tolerance p target := by
  unfold bandOf
  split
  · simp [*]
  · split <;> simp [*]

theorem bandOf_above_iff (p : Params) (target : Nat) (r : Rat) :
    bandOf p target r = .above ↔ (target : Rat) + tolerance p target < r := by
  have := tolerance_nonneg p target
  unfold bandOf
  split
  · simp only [reduceCtorEq, false_iff, not_lt]; linarith
  · split <;> simp [*]

theorem bandOf_inside_iff (p : Params) (target : Nat) (r : Rat) : bandOf p target r = .inside ↔
    (target : Rat) - tolerance p target ≤ r ∧ r ≤ (target : Rat) + tolerance p target := by
  unfold bandOf
  split
  · simp only [reduceCtorEq, false_iff, not_and, not_le]; intro h; linarith
  · split <;> simp_all

/-- What a correction is (R207 to R209): its direction and steps stay inside the travel. -/
theorem correction_some {p : Params} {target current n : Nat} {r : Rat} {dir : Byte}
    (h : correction p target current r = some (dir, n)) :
    0 < n ∧ n ≤ 200 ∧ ((dir = dirOpen p ∧ n ≤ p.maxTravel - current) ∨ (dir = dirClose p ∧ n ≤ current)) := by
  unfold correction at h
  split at h <;> [skip; skip; simp at h]
  · split at h <;> simp only [Option.some.injEq, Prod.mk.injEq, reduceCtorEq] at h
    obtain ⟨rfl, rfl⟩ := h
    simp only [openSteps, Config.stepUnit] at *
    exact ⟨by omega, by omega, Or.inl ⟨trivial, by omega⟩⟩
  · split at h <;> simp only [Option.some.injEq, Prod.mk.injEq, reduceCtorEq] at h
    obtain ⟨rfl, rfl⟩ := h
    simp only [closeSteps, Config.stepUnit] at *
    exact ⟨by omega, by omega, Or.inr ⟨trivial, by omega⟩⟩

/-! ### One-shot moves (R215) -/

/-- A move's steps and multiplier fit their bytes, and its size is positive and inside the distance. -/
theorem oneShotMove_bounds {d : Nat} (h : 0 < d) :
    0 < (oneShotMove d).1 ∧ (oneShotMove d).1 ≤ 200 ∧ 0 < (oneShotMove d).2 ∧ (oneShotMove d).2 ≤ 255
      ∧ 0 < (oneShotMove d).1 * (oneShotMove d).2 ∧ (oneShotMove d).1 * (oneShotMove d).2 ≤ d := by
  unfold oneShotMove fullMultiplier Config.stepUnit
  split
  · have h1 : 0 < d / 200 := Nat.div_pos ‹_› (by norm_num)
    have h2 : d / 200 * 200 ≤ d := Nat.div_mul_le_self d 200
    exact ⟨by norm_num, by norm_num, by omega, by omega, by simp; omega, by simp; omega⟩
  · refine ⟨?_, ?_, ?_, ?_, ?_, ?_⟩ <;> simp <;> omega

/-! ### Publishing, beginning a move -/

/-- A successful sample (R205, R206). -/
theorem publish_eq (s : State) : publish s =
    { s with
      io := { s.io with times := s.io.times.tail, nows := s.io.nows + 1 }
      reg := { s.reg with
        lastSampleTime := s.now.1
        flowOut := rate s.cfg s.seq.value.toNat (elapsed s.cfg s.now.1 s.reg.lastSampleTime)
        flowValid := true } } := by
  unfold publish
  simp only [State.now_state]

/-- The timebase's value depends on what the timebase holds alone. -/
theorem State.now_congr {s t : State} (hc : s.cfg = t.cfg) (hi : s.io = t.io) : s.now.1 = t.now.1 := by
  unfold State.now
  rw [hc, hi]
  split <;> rfl

/-- A correction begun (R205): the move registers, and the Motor frame awaiting its write. -/
theorem beginMove_eq {dir : Byte} (h : isDirection dir = true) (n : Nat) (s : State) : beginMove dir n s =
    { s with
      reg := { s.reg with mvDir := dir, mvN := BitVec.ofNat 8 n, phase := .motorTxn }
      seq := { s.seq with
        kind := .motor, frame := frameBytes Config.tagMotor [dir, BitVec.ofNat 8 n, 1], state := .write } } := by
  unfold beginMove
  simp only [seqBegin_valid (q := .motor dir (BitVec.ofNat 8 n) (BitVec.ofNat 8 Config.stepMult)) h]
  rfl

/-- CY_SAMPLE (R205, R211): a failed transaction sleeps; a successful one is published, then a correction is begun or
the cycle sleeps. -/
theorem cySampleOp_cases (s : State) :
    (s.seq.result ≠ .ok ∧ cySampleOp s = s.collect.toPhase .sleep)
      ∨ (s.seq.result = .ok ∧ ∃ r, r = rate s.cfg s.seq.value.toNat (elapsed s.cfg s.now.1 s.reg.lastSampleTime)
        ∧ ∃ t, t = { s with
            seq := { s.seq with state := .free }
            io := { s.io with times := s.io.times.tail, nows := s.io.nows + 1 }
            reg := { s.reg with
              lastResult := .ok, lastSampleTime := s.now.1, flowOut := r, flowValid := true } }
          ∧ ((correction s.cfg s.reg.targetFlow.toNat s.reg.currentSteps r = none
              ∧ cySampleOp s = t.toPhase .sleep)
            ∨ ∃ dir n, correction s.cfg s.reg.targetFlow.toNat s.reg.currentSteps r = some (dir, n)
              ∧ cySampleOp s = beginMove dir n t)) := by
  by_cases hr : s.seq.result = .ok
  · refine Or.inr ⟨hr, _, rfl, _, rfl, ?_⟩
    have hp : publish s.collect = { s with
        seq := { s.seq with state := .free }
        io := { s.io with times := s.io.times.tail, nows := s.io.nows + 1 }
        reg := { s.reg with
          lastResult := .ok, lastSampleTime := s.now.1
          flowOut := rate s.cfg s.seq.value.toNat (elapsed s.cfg s.now.1 s.reg.lastSampleTime)
          flowValid := true } } := by
      have hn : s.collect.now.1 = s.now.1 := State.now_congr rfl rfl
      rw [publish_eq]
      simp [hr, hn]
    simp only [cySampleOp, hr, if_true, hp]
    split
    · exact Or.inl ⟨‹_›, rfl⟩
    · exact Or.inr ⟨_, _, ‹_›, rfl⟩
  · exact Or.inl ⟨hr, by simp [cySampleOp, hr]⟩

/-- OS_MOVE (R215): the distance taken off, and the Motor frame awaiting its write. -/
theorem osMoveOp_eq (s : State) : osMoveOp s =
    { s with
      reg := { s.reg with
        osRem := s.reg.osRem - (oneShotMove s.reg.osRem).1 * (oneShotMove s.reg.osRem).2, phase := .motorTxn }
      seq := { s.seq with
        kind := .motor, state := .write
        frame := frameBytes Config.tagMotor [oneShotDir s, BitVec.ofNat 8 (oneShotMove s.reg.osRem).1,
          BitVec.ofNat 8 (oneShotMove s.reg.osRem).2] } } := by
  unfold osMoveOp
  simp only [seqBegin_valid (q := .motor (oneShotDir s) (BitVec.ofNat 8 (oneShotMove s.reg.osRem).1)
    (BitVec.ofNat 8 (oneShotMove s.reg.osRem).2)) (isDirection_oneShotDir s)]
  rfl

end Sys2Proof.Machine
end

