-- ==== Sys2Proof/Laws/Sequencer.lean ====
section
/-! SUPPORT. Runs of the sequencer: what is left of a transaction, how a whole one begins, and a wait that reads a
stream of bytes. -/

namespace Sys2Proof.Machine

theorem seqRun_add (n m : Nat) (s : State) : seqRun (n + m) s = seqRun m (seqRun n s) := by
  induction n generalizing s with
  | zero => simp [seqRun]
  | succ n ih => rw [Nat.succ_add, seqRun, ih]; rfl

/-- A finished transaction stays as it is until it is collected. -/
theorem seqRun_done (n : Nat) {s : State} (h : s.seq.state = .done) : seqRun n s = s := by
  induction n with
  | zero => rfl
  | succ n ih => simp [seqRun, seqStep, h, ih]

/-- The SEQ steps a transaction can still take (R180). -/
def seqLeft (s : State) : Nat :=
  match s.seq.state with
  | .write => s.cfg.maxPolls + 2
  | .wait => s.cfg.maxPolls - s.seq.polls + 1
  | .free => 0
  | .done => 0

/-- SEQ_POLL gets nearer to the end, and touches no register of REG. -/
theorem seqPollOp_progress {s : State} (h : s.seq.state = .wait) :
    seqLeft (seqPollOp s) < seqLeft s ∧ (seqPollOp s).cfg = s.cfg ∧ (seqPollOp s).reg = s.reg
      ∧ ((seqPollOp s).seq.state = .wait ∨ (seqPollOp s).seq.state = .done)
      ∧ (seqPollOp s).io.writes = s.io.writes ∧ (seqPollOp s).io.schedule = s.io.schedule
      ∧ (seqPollOp s).io.reads + ((seqPollOp s).cfg.maxPolls - (seqPollOp s).seq.polls)
        ≤ s.io.reads + (s.cfg.maxPolls - s.seq.polls) := by
  rcases seqPollOp_cases s with ⟨_, e⟩ | ⟨_, _, e⟩ | ⟨_, _, e⟩ | ⟨_, b, _, e⟩
  · rw [e]; simp [seqLeft, h]
  · rw [e]; simp [seqLeft, h, afterRead]; omega
  · rw [e]; simp [seqLeft, h, afterRead]; omega
  · obtain ⟨r, e2⟩ := rxByte_frame b (afterRead s)
    rcases handOver_cases (rxByte b (afterRead s)) with e1 | ⟨v, e1⟩ <;> rw [e, e1, e2] <;>
      simp [seqLeft, h, afterRead] <;> omega

/-- SEQ_WRITE gets nearer to the end, and touches no register of REG. -/
theorem seqWriteOp_progress {s : State} (h : s.seq.state = .write) :
    seqLeft (seqWriteOp s) < seqLeft s ∧ (seqWriteOp s).cfg = s.cfg ∧ (seqWriteOp s).reg = s.reg
      ∧ (seqWriteOp s).io.schedule = s.io.schedule := by
  rcases seqWriteOp_cases s with ⟨_, e⟩ | ⟨_, e⟩ <;> rw [e] <;> simp [seqLeft, h]

/-- A transaction whose request passes its check and is written: its wait, with the whole budget. -/
theorem transaction_written {q : Request} {s : State} (hv : q.valid = true) (hw : s.nextWriteAnswer = .ok) :
    transaction q s = seqRun (s.cfg.maxPolls + 1)
      { s with
        seq := { s.seq with kind := q.kind, frame := frameBytes q.kind.tag q.payload, polls := 0, state := .wait }
        rx := if s.cfg.rxClearOnWait then { s.rx with count := 0, len := 0 } else s.rx
        io := { s.io with
          writeAnswers := s.io.writeAnswers.tail, writes := s.io.writes + 1
          txLog := s.io.txLog ++ [⟨frameBytes q.kind.tag q.payload, .ok⟩] } } := by
  unfold transaction
  rw [seqBegin_valid hv, seqRun]
  congr 1
  generalize hs : ({ s with seq := { s.seq with
    kind := q.kind, frame := frameBytes q.kind.tag q.payload, state := .write } } : State) = s1
  have hst : seqStep s1 = seqWriteOp s1 := by subst hs; simp [seqStep]
  have hn : s1.nextWriteAnswer = .ok := by subst hs; exact hw
  rw [hst]
  rcases seqWriteOp_cases s1 with ⟨_, e⟩ | ⟨h, e⟩
  · rw [e]; subst hs; rfl
  · rw [hn] at h; cases h

/-- A poll whose read answers a byte. -/
theorem seqStep_byte {s : State} {b : Byte} {rest : List ReadAnswer} (h : s.seq.state = .wait)
    (hp : s.seq.polls < s.cfg.maxPolls) (hr : s.io.readAnswers = .byte b :: rest) :
    seqStep s = handOver (rxByte b (afterRead s)) := by
  have hst : seqStep s = seqPollOp s := by simp [seqStep, h]
  have hb : s.transportRead.1 = .byte b := by rw [State.transportRead_answer, hr]; rfl
  rw [hst]
  rcases seqPollOp_cases s with ⟨_, e⟩ | ⟨_, _, e⟩ | ⟨_, _, e⟩ | ⟨_, b', hb', e⟩ <;> first | omega | simp_all

/-- A wait that reads bytes of which no frame comes, inside its budget: the receiver is fed, the polls are counted. -/
theorem seqRun_feed (l : List Byte) {t : State} {rest : List ReadAnswer} (h : t.seq.state = .wait)
    (hp : t.seq.polls + l.length ≤ t.cfg.maxPolls) (hr : t.io.readAnswers = l.map .byte ++ rest)
    (hf : (rxFeed l t).2 = []) :
    (seqRun l.length t).rx = (rxFeed l t).1.rx ∧ (seqRun l.length t).cfg = t.cfg
      ∧ (seqRun l.length t).seq = { t.seq with polls := t.seq.polls + l.length }
      ∧ (seqRun l.length t).io.readAnswers = rest := by
  induction l generalizing t with
  | nil => exact ⟨rfl, rfl, by simp [seqRun], by simpa [seqRun] using hr⟩
  | cons b l ih =>
    simp only [List.length_cons, List.map_cons, List.cons_append] at hp hr
    rw [List.length_cons, seqRun, seqStep_byte h (by omega) hr]
    obtain ⟨c1, c2⟩ := rxByte_congr b (s := afterRead t) (t := t) rfl
    simp only [rxFeed, List.append_eq_nil_iff] at hf
    have hnone : (rxByte b t).2 = none := by
      cases hh : (rxByte b t).2 with
      | none => rfl
      | some f => simp [hh] at hf
    have hho : handOver (rxByte b (afterRead t)) = (rxByte b (afterRead t)).1 := by
      rw [hnone] at c2
      generalize rxByte b (afterRead t) = x at *
      obtain ⟨x1, x2⟩ := x
      simp only at c2
      subst c2
      rfl
    rw [hho]
    obtain ⟨r, hr2⟩ := rxByte_frame b (afterRead t)
    generalize (rxByte b (afterRead t)).1 = u at *
    have q1 : u.seq = { t.seq with polls := t.seq.polls + 1 } := by rw [hr2]; rfl
    have q2 : u.cfg = t.cfg := by rw [hr2]; rfl
    have q3 : u.io.readAnswers = l.map .byte ++ rest := by rw [hr2]; simp [afterRead, hr]
    obtain ⟨f1, f2⟩ := rxFeed_congr l (s := u) (t := (rxByte b t).1) c1
    obtain ⟨g1, g2, g3, g4⟩ := ih (t := u) (by rw [q1]; exact h) (by rw [q1, q2]; simp only; omega) q3
      (by rw [f2]; exact hf.2)
    refine ⟨?_, by rw [g2, q2], ?_, g4⟩
    · rw [g1, f1]; rfl
    · rw [g3, q1, Nat.add_assoc, Nat.add_comm 1]

end Sys2Proof.Machine
end

