-- ==== Sys2Proof/Tests/Slice0.lean ====
section
/-! SUPPORT. The model's own tests: the operand checks, every row's word written out from the spec, one-step tests
from the spec's vectors (95_test_vectors.md), and a witness for the hypotheses of each statement. -/

namespace Sys2Proof.Tests

open Sys2Proof Sys2Proof.Machine

/-! ### Well-formedness: each check refuses a term -/

theorem test_wf_badlen_two_bytes : (Instr.flowBadLen [1, 2]).wellFormed = false := by decide
theorem test_wf_badlen_too_long : (Instr.flowBadLen (List.replicate 252 0)).wellFormed = false := by decide +kernel
theorem test_wf_motorR_too_long : (Instr.motorR (List.replicate 252 0)).wellFormed = false := by decide +kernel
theorem test_wf_testR_too_long : (Instr.testR (List.replicate 252 0)).wellFormed = false := by decide +kernel
theorem test_wf_frame_too_long : (Instr.frame 0x58 (List.replicate 252 0)).wellFormed = false := by decide +kernel
theorem test_wf_frame_tag_motor : (Instr.frame 0x4D []).wellFormed = false := by decide
theorem test_wf_frame_tag_flow : (Instr.frame 0x46 []).wellFormed = false := by decide
theorem test_wf_frame_tag_test : (Instr.frame 0x54 []).wellFormed = false := by decide
theorem test_wf_drop_start_byte : (Instr.rxDrop 0xAA).wellFormed = false := by decide
theorem test_wf_badlen_four : (Instr.rxBadLen 4).wellFormed = false := by decide
theorem test_wf_len_three : (Instr.rxLen 3).wellFormed = false := by decide
theorem test_wf_reserved_op_five : (Instr.reservedOp67 5).wellFormed = false := by decide
theorem test_wf_ignored_index_four : (Instr.writeIgnored23 4).wellFormed = false := by decide
theorem test_wf_ignored_index_three : (Instr.writeIgnored47 3).wellFormed = false := by decide

/-! ### Decoding: words written out from the spec -/

/-- V7, V20: MOTOR F, 200, 10. -/
theorem test_decode_motor :
    decode (.frame .toDevice [0b10101010, 0b00000111, 0b01001101, 0b01000110, 0b11001000, 0b00001010, 0b01100100])
      = .ok (.motor 0x46 200 10) := by decide

/-- V21. -/
theorem test_decode_flow :
    decode (.frame .toDevice [0b10101010, 0b00000100, 0b01000110, 0b11101000]) = .ok .flow := by decide

/-- V22 as a request. -/
theorem test_decode_test :
    decode (.frame .toDevice [0b10101010, 0b00000100, 0b01010100, 0b11111010]) = .ok .test := by decide

/-- V24: FLOW.R 0x1234, low byte first. -/
theorem test_decode_flowR :
    decode (.frame .toBlock [0b10101010, 0b00000110, 0b01000110, 0b00110100, 0b00010010, 0b11001100])
      = .ok (.flowR 0x34 0x12) := by decide

/-- V79's second frame: tag 'F' with one payload byte. -/
theorem test_decode_flowBadLen :
    decode (.frame .toBlock [0xAA, 0x05, 0x46, 0x07, 0xEE]) = .ok (.flowBadLen [0x07]) := by decide

/-- V23. -/
theorem test_decode_motorR : decode (.frame .toBlock [0xAA, 0x04, 0x4D, 0xE3]) = .ok (.motorR []) := by decide

/-- V65: a Test reply with a payload. -/
theorem test_decode_testR :
    decode (.frame .toBlock [0xAA, 0x05, 0x54, 0x00, 0xFB]) = .ok (.testR [0x00]) := by decide

/-- V32; V30, whose command is the start byte. -/
theorem test_decode_frame :
    decode (.frame .toBlock [0xAA, 0x06, 0x58, 0xAA, 0x01, 0x5F]) = .ok (.frame 0x58 [0xAA, 0x01])
      ∧ decode (.frame .toBlock [0xAA, 0x04, 0xAA, 0x04]) = .ok (.frame 0xAA []) := by decide

/-- V41, V48, V42, V43: what is no valid frame is refused by name. -/
theorem test_decode_rejects :
    decode (.frame .toBlock [0xAA, 0x04, 0x54, 0xFB]) = .error .badChecksum
      ∧ decode (.frame .toBlock [0xAA, 0x03, 0xA9]) = .error .badLength
      ∧ decode (.frame .toBlock [0xAB, 0x04, 0x54, 0xFB]) = .error .badStart
      ∧ decode (.frame .toBlock [0xAA, 0x05, 0x54, 0xFA]) = .error .lengthMismatch
      ∧ decode (.frame .toDevice [0xAA, 0x04, 0x4D, 0xE3]) = .error .notARequest
      ∧ decode (.step 0 0 0 false) = .error .noStepEnabled := by decide

/-- V60, V62, V63: the six classes. -/
theorem test_decode_rx :
    decode (.rxByte 0 0 0xAA) = .ok .rxStart ∧ decode (.rxByte 0 0 0x13) = .ok (.rxDrop 0x13)
      ∧ decode (.rxByte 1 0 0x03) = .ok (.rxBadLen 0x03) ∧ decode (.rxByte 1 0 0xAA) = .ok (.rxLen 0xAA)
      ∧ decode (.rxByte 2 4 0x54) = .ok (.rxData 0x54) ∧ decode (.rxByte 3 4 0xFA) = .ok (.rxLast 0xFA) := by decide

/-- R103: the op codes in bits 2:0 of the word, and the other indices (R33). -/
theorem test_decode_host :
    decode (.host ⟨true, 0, 0x0064⟩) = .ok (.setTarget 100) ∧ decode (.host ⟨true, 1, 0b1⟩) = .ok .start
      ∧ decode (.host ⟨true, 1, 0b10⟩) = .ok .stop ∧ decode (.host ⟨true, 1, 0b11⟩) = .ok .fullyOpen
      ∧ decode (.host ⟨true, 1, 0b100⟩) = .ok .fullyClose ∧ decode (.host ⟨true, 1, 0b101⟩) = .ok .testOp
      ∧ decode (.host ⟨true, 1, 0b1000⟩) = .ok .reservedOp0 ∧ decode (.host ⟨true, 1, 0b110⟩) = .ok (.reservedOp67 6)
      ∧ decode (.host ⟨true, 1, 0xFFFF⟩) = .ok (.reservedOp67 7) ∧ decode (.host ⟨true, 2, 1⟩) = .ok (.writeIgnored23 2)
      ∧ decode (.host ⟨true, 7, 1⟩) = .ok (.writeIgnored47 7) ∧ decode (.host ⟨false, 4, 0⟩) = .ok (.hostRead 4) := by
  decide

/-- D34: the codes of the state registers, as the table writes them. -/
theorem test_decode_steps :
    decode (.step 0b001 0b01 0b01 false) = .ok .seqWrite ∧ decode (.step 0b001 0b01 0b10 false) = .ok .seqPoll
      ∧ decode (.step 0b001 0b00 0b00 false) = .ok .cyTop ∧ decode (.step 0b001 0b01 0b11 false) = .ok .cySample
      ∧ decode (.step 0b001 0b10 0b11 false) = .ok .cyAck ∧ decode (.step 0b001 0b11 0b00 false) = .ok .cyWake
      ∧ decode (.step 0b011 0b00 0b00 true) = .ok .osMove ∧ decode (.step 0b100 0b00 0b00 false) = .ok .osEnd
      ∧ decode (.step 0b100 0b10 0b11 false) = .ok .osNext ∧ decode (.step 0b101 0b10 0b11 false) = .ok .testDone := by
  decide

/-- The table words of MOTOR, FLOW, RX_START, START, TEST_DONE (opcode_table.json). -/
theorem test_table_words :
    decodeTableWord 24 0xAA074D = some (.motor 0 0 0) ∧ decodeTableWord 24 0xAA0446 = some .flow
      ∧ decodeTableWord 8 0xAA = some .rxStart ∧ decodeTableWord 8 0x09 = some .start
      ∧ decodeTableWord 8 0x5B = some .testDone := by decide

/-! ### The codec -/

/-- V35: the largest frame's length, length byte and checksum; V36 is refused. -/
theorem test_encode_bounds :
    (codecEncode 0x10 ((List.range 251).map (BitVec.ofNat 8))).toOption.map
        (fun f => (f.length, f[1]?, f.getLast?)) = some (255, some 0xFF, some 0xBE)
      ∧ codecEncode 0x10 (List.replicate 252 0) = .error (.payloadTooLarge 252) := by decide +kernel

/-- V45, V46: compensating flips are not detected. -/
theorem test_validate_flips :
    codecValidate [0xAA, 0x04, 0x5C, 0xF2] 4 = true
      ∧ codecValidate [0xAA, 0x07, 0x4D, 0x4E, 0xC8, 0x0A, 0x6C] 7 = true := by decide

/-! ### One step on a small state -/

/-- The parameters the spec's programs use (95_test_vectors.md part 3). -/
def params : Params :=
  { maxTravel := 2000, cal := 1, maxPolls := 8, dirOpen := .forward, rxClearOnWait := false, tickHz := 1000 }

/-- The block at a place, everything else as after reset. -/
def at' (r : RegState) (p : Phase) (q : SeqState) : State := (State.resetWith params).placeAt r p q

/-- The block inside a wait of this kind, with these bytes captured. -/
def waiting (k : Kind) (len : Byte) (bytes : List Byte) : State :=
  let s := (at' .test .motorTxn .wait).placeCapture len bytes
  { s with seq := { s.seq with kind := k } }

/-- A field of the next state, none where there is none. -/
def after {α : Type} (f : State → α) : Host.Outcome State Fault Refusal → Option α
  | .next t => some (f t)
  | .fault _ => none
  | .refused _ => none

/-- V80: a byte that is no direction. -/
theorem test_motor_direction :
    after (fun t => (t.seq.result, t.seq.state, t.seq.frame)) (exec (.motor 0x58 200 1) (at' .idle .top .free))
      = some (.invalidDirection, .done, []) := by decide

/-- V33: MOTOR B, 200, 1. -/
theorem test_motor_frame :
    after (fun t => (t.seq.frame, t.seq.state)) (exec (.motor 0x42 200 1) (at' .idle .top .free))
      = some ([0xAA, 0x07, 0x4D, 0x42, 0xC8, 0x01, 0x6B], .write) := by decide

/-- V21. -/
theorem test_flow_frame :
    after (fun t => t.seq.frame) (exec .flow (at' .idle .top .free)) = some [0xAA, 0x04, 0x46, 0xE8] := by decide

/-- V22. -/
theorem test_test_frame :
    after (fun t => t.seq.frame) (exec .test (at' .idle .top .free)) = some [0xAA, 0x04, 0x54, 0xFA] := by decide

/-- V24, and R174: the same reply in a Motor wait is discarded. -/
theorem test_flowR :
    after (fun t => (t.seq.value, t.seq.state)) (exec (.flowR 0x34 0x12) (waiting .flow 0 [])) = some (0x1234, .done)
      ∧ after (fun t => (t.seq.value, t.seq.state)) (exec (.flowR 0x34 0x12) (waiting .motor 0 []))
        = some (0, .wait) := by decide

/-- V62: a length byte of 3 empties the receiver. -/
theorem test_rx_badLen :
    after (fun t => (t.rx.count.val, t.rx.len)) (exec (.rxBadLen 3) (waiting .test 0 [0xAA])) = some (0, 0) := by decide

/-- R144: from (1, 0), byte 04 gives (2, 4). -/
theorem test_rx_len :
    after (fun t => (t.rx.count.val, t.rx.len)) (exec (.rxLen 4) (waiting .test 0 [0xAA])) = some (2, 4) := by decide

/-- R145: from (2, 4), byte 54 gives (3, 4) and rx_buf[2] = 54. -/
theorem test_rx_data :
    after (fun t => (t.rx.count.val, t.rx.len, t.rx.buf.read 2)) (exec (.rxData 0x54) (waiting .test 4 [0xAA, 4]))
      = some (3, 4, 0x54) := by decide

/-- V60, V61: the last byte of the TEST frame ends a Test wait; with a wrong checksum nothing is emitted. -/
theorem test_rx_last :
    after (fun t => (t.rx.count.val, t.seq.state)) (exec (.rxLast 0xFA) (waiting .test 4 [0xAA, 4, 0x54]))
        = some (0, .done)
      ∧ after (fun t => (t.rx.count.val, t.seq.state)) (exec (.rxLast 0xFB) (waiting .test 4 [0xAA, 4, 0x54]))
        = some (0, .wait) := by decide

/-- V61: one frame of two captures. -/
theorem test_feed : (rxFeed [0xAA, 4, 0x54, 0xFB, 0xAA, 4, 0x54, 0xFA] (at' .idle .top .free)).2 = [⟨0x54, []⟩] := by
  decide

/-- V67: a false length swallows a frame. -/
theorem test_feed_swallows :
    (rxFeed [0xAA, 8, 0, 0, 0xAA, 4, 0x54, 0xFA, 0xAA, 6, 0x46, 0x34, 0x12, 0xCC] (at' .idle .top .free)).2
      = [⟨0x46, [0x34, 0x12]⟩] := by decide

/-- A change of the regulator's registers. -/
def withReg (s : State) (f : RegRegs → RegRegs) : State := { s with reg := f s.reg }

/-- A change of the sequencer's registers. -/
def withSeq (s : State) (f : SeqRegs → SeqRegs) : State := { s with seq := f s.seq }

/-- R202: a positive target starts the loop, 0 does not. -/
theorem test_start :
    after (fun t => t.reg.state) (exec .start (withReg (at' .idle .top .free) fun r => { r with targetFlow := 100 }))
        = some .running
      ∧ after (fun t => t.reg.state) (exec .start (at' .idle .top .free)) = some .idle := by decide

/-- R201. -/
theorem test_setTarget :
    after (fun t => t.reg.targetFlow) (exec (.setTarget 100) (at' .running .sleep .free)) = some 100 := by decide

/-- R203: the stop flag in Running, nothing in Test. -/
theorem test_stop :
    after (fun t => t.reg.stopFlag) (exec .stop (at' .running .sleep .free)) = some true
      ∧ after (fun t => t.reg.stopFlag) (exec .stop (at' .test .motorTxn .wait)) = some false := by decide

/-- R214: from 150 of 2000, 1850 steps remain; V6. -/
theorem test_fullyOpen :
    after (fun t => (t.reg.osRem, t.reg.state))
      (exec .fullyOpen (withReg (at' .idle .top .free) fun r => { r with currentSteps := 150 }))
      = some (1850, .fullyOpen) := by decide

/-- R217: from 450, 450 steps remain. -/
theorem test_fullyClose :
    after (fun t => (t.reg.osRem, t.reg.state))
      (exec .fullyClose (withReg (at' .idle .top .free) fun r => { r with currentSteps := 450 }))
      = some (450, .fullyClose) := by decide

/-- R219: TEST begins its transaction. -/
theorem test_testOp :
    after (fun t => (t.reg.state, t.seq.frame, t.seq.state)) (exec .testOp (at' .idle .top .free))
      = some (.test, [0xAA, 0x04, 0x54, 0xFA], .write) := by decide

/-- R33: STATUS in Test with link_ok and last_result TransportError reads 5 + 16 + 3 * 256. -/
theorem test_hostRead_status :
    after (fun t => t.io.hRdata) (exec (.hostRead 2)
      (withReg (at' .test .motorTxn .free) fun r => { r with linkOk := true, lastResult := .transportError }))
      = some (.word 0x315) := by decide +kernel

/-- R172's example; R63 and V76: a failed write was given to TRANSPORT too, and none of it counts as accepted. -/
theorem test_seqWrite :
    after (fun t => (t.io.txStream, t.seq.state, t.seq.polls)) (exec .seqWrite
        { withSeq (at' .running .flowTxn .write) (fun q => { q with frame := [0xAA, 0x04, 0x46, 0xE8] }) with
          io := { Io.reset with writeAnswers := [.ok] } }) = some ([0xAA, 0x04, 0x46, 0xE8], .wait, 0)
      ∧ after (fun t => (t.io.txStream, t.io.txAccepted, t.seq.state, t.seq.result)) (exec .seqWrite
        { withSeq (at' .test .motorTxn .write) (fun q => { q with frame := [0xAA, 0x04, 0x54, 0xFA] }) with
          io := { Io.reset with writeAnswers := [.error] } })
        = some ([0xAA, 0x04, 0x54, 0xFA], [], .done, .transportError) := by decide

/-- V78: no poll left, no read; V77: an error on a read leaves the receiver as it was. -/
theorem test_seqPoll :
    after (fun t => (t.seq.result, t.io.reads)) (exec .seqPoll
        (withSeq (at' .test .motorTxn .wait) fun q => { q with polls := 8 })) = some (.noResponse, 0)
      ∧ after (fun t => (t.seq.result, t.seq.polls, t.rx.count.val)) (exec .seqPoll
        { withSeq (waiting .test 4 [0xAA, 4]) (fun q => { q with polls := 2 }) with
          io := { Io.reset with readAnswers := [.error] } }) = some (.transportError, 3, 2) := by decide

/-- R204: the stop flag ends the loop; without it the Flow request is begun. -/
theorem test_cyTop :
    after (fun t => (t.reg.state, t.reg.stopFlag)) (exec .cyTop
        (withReg (at' .running .top .free) fun r => { r with stopFlag := true })) = some (.idle, false)
      ∧ after (fun t => (t.reg.phase, t.seq.frame)) (exec .cyTop (at' .running .top .free))
        = some (.flowTxn, [0xAA, 0x04, 0x46, 0xE8]) := by decide

/-- A successful Flow transaction at this time, with this count and target. -/
def sampled (time : Nat) (pulses target : Half) : State :=
  { withReg (withSeq (at' .running .flowTxn .done) fun q => { q with value := pulses }) fun r =>
      { r with targetFlow := target } with
    io := { Io.reset with times := [time] } }

/-- R205's example: rate 50 below 75, MOTOR F, 200, 1 is begun. -/
theorem test_cySample_opens :
    after (fun t => (t.reg.flowOut, t.seq.frame, t.reg.lastSampleTime)) (exec .cySample (sampled 1000 50 100))
      = some (50, [0xAA, 0x07, 0x4D, 0x46, 0xC8, 0x01, 0x6F], 1000) := by decide +kernel

/-- R207: the upper end of the band is inside; R205: no time passed gives rate 0, which asks to open. -/
theorem test_cySample_edges :
    after (fun t => (t.reg.flowOut, t.reg.phase)) (exec .cySample (sampled 1000 125 100)) = some (125, .sleep)
      ∧ after (fun t => (t.reg.flowOut, t.reg.phase)) (exec .cySample (sampled 0 50 100)) = some (0, .motorTxn) := by
  decide +kernel

/-- R210's example. -/
theorem test_cyAck :
    after (fun t => t.reg.currentSteps) (exec .cyAck (withReg (at' .running .motorTxn .done) fun r =>
      { r with currentSteps := 1900, mvDir := 0x46, mvN := 100 })) = some 2000 := by decide

/-- R212. -/
theorem test_cyWake : after (fun t => t.reg.phase) (exec .cyWake (at' .running .sleep .free)) = some .top := by decide

/-- R215's example: MOTOR dir, 200, 9, and 50 left; then MOTOR dir, 50, 1. -/
theorem test_osMove :
    after (fun t => (t.seq.frame, t.reg.osRem)) (exec .osMove
        (withReg (at' .fullyOpen .top .free) fun r => { r with osRem := 1850 }))
        = some ([0xAA, 0x07, 0x4D, 0x46, 0xC8, 0x09, 0x67], 50)
      ∧ after (fun t => (t.seq.frame, t.reg.osRem)) (exec .osMove
        (withReg (at' .fullyClose .top .free) fun r => { r with osRem := 50 }))
        = some ([0xAA, 0x07, 0x4D, 0x42, 0x32, 0x01, 0x91], 0) := by decide

/-- R216: the bound, whatever the position was. -/
theorem test_osEnd :
    after (fun t => (t.reg.currentSteps, t.reg.state)) (exec .osEnd (at' .fullyOpen .top .free)) = some (2000, .idle) := by
  decide

/-- R223: after NoResponse the sequence goes on. -/
theorem test_osNext :
    after (fun t => (t.reg.phase, t.reg.lastResult, t.reg.currentSteps)) (exec .osNext
      (withSeq (at' .fullyOpen .motorTxn .done) fun q => { q with result := .noResponse })) = some (.top, .noResponse, 0) := by
  decide

/-- R219: the link's state. -/
theorem test_testDone :
    after (fun t => (t.reg.linkOk, t.reg.testDone, t.reg.state)) (exec .testDone (at' .test .motorTxn .done))
      = some (true, true, .idle) := by decide

/-- Reset leaves an accumulator in canonical form. -/
theorem test_reset_memory : State.reset.rx.buf.wf := by decide

/-- Outside its precondition an operation is refused by name. -/
theorem test_not_enabled : exec .cyAck (at' .idle .top .free) = .refused .notEnabled := rfl

/-! ### Witnesses: states and operands that meet each statement's hypotheses -/

theorem test_hyp_EncodeLaysOutTheFrame :
    (List.replicate 251 (0 : Byte)).length ≤ 251 ∧ 251 < (List.replicate 252 (0 : Byte)).length := by decide +kernel

theorem test_hyp_EncodedFrameValidates :
    (List.replicate 0 (0 : Byte)).length ≤ 251 ∧ (List.replicate 251 (0 : Byte)).length ≤ 251 := by decide +kernel

theorem test_hyp_ValidateAsZeroXor : 4 ≤ ([0xAA, 0x04, 0x54, 0xFA] : List Byte).length := by decide

/-- V45's buffer is a set of flips that the second clause speaks of. -/
theorem test_hyp_SingleFlipDetectedEvenFlipsNot :
    ([] : List Byte).length ≤ 251 ∧ codecEncode 0x54 [] = .ok [0xAA, 0x04, 0x54, 0xFA]
      ∧ ([0xAA, 0x04, 0x54, 0xFA] : List Byte)[3]? = some 0xFA
      ∧ xor8 (List.zipWith (· ^^^ ·) [0xAA, 0x04, 0x54, 0xFA] [0xAA, 0x04, 0x5C, 0xF2]) = 0 := by decide

theorem test_hyp_DecodeEncodeRoundTrip :
    (Instr.motorR (List.replicate 251 0)).wellFormed = true ∧ (Instr.rxLen 4).wellFormed = true
      ∧ (Instr.rxBadLen 3).wellFormed = true ∧ (Instr.frame 0x58 [0xAA, 0x01]).wellFormed = true := by decide +kernel

theorem test_hyp_DecodedIsWellFormed : decode (.rxByte 1 0 3) = .ok (.rxBadLen 3) := by decide

/-- The ends of each clause's range: 0, 1, the first and the last data byte, the least and the largest last byte. -/
theorem test_hyp_ReceivedBytesDecodeByState :
    (0 : Fin 255).val = 0 ∧ (1 : Fin 255).val = 1
      ∧ (2 ≤ (2 : Fin 255).val ∧ (2 : Fin 255).val + 2 ≤ (4 : Byte).toNat)
      ∧ (2 ≤ (253 : Fin 255).val ∧ (253 : Fin 255).val + 2 ≤ (255 : Byte).toNat)
      ∧ (2 ≤ (3 : Fin 255).val ∧ (3 : Fin 255).val + 1 = (4 : Byte).toNat)
      ∧ (2 ≤ (254 : Fin 255).val ∧ (254 : Fin 255).val + 1 = (255 : Byte).toNat) := by decide

theorem test_hyp_StateRegistersSelectTheStep :
    (at' .running .flowTxn .write).seq.state = .write ∧ (at' .test .motorTxn .wait).seq.state = .wait
      ∧ (at' .running .top .free).reg.phase = .top ∧ (at' .running .flowTxn .done).reg.phase = .flowTxn
      ∧ (at' .running .motorTxn .done).seq.state = .done ∧ (at' .running .sleep .free).reg.state = .running
      ∧ (at' .fullyOpen .top .free).reg.state = .fullyOpen ∧ (at' .fullyClose .motorTxn .done).reg.state = .fullyClose
      ∧ (at' .test .motorTxn .done).reg.state = .test ∧ (at' .idle .top .free).reg.state = .idle := by decide

theorem test_hyp_StepRunsTheDecodedOperation :
    ((at' .idle .top .free).turnFirst (.host ⟨true, 1, 1⟩)).io.schedule = .host ⟨true, 1, 1⟩ :: []
      ∧ decode (.host ⟨true, 1, 1⟩) = .ok .start
      ∧ ((at' .running .top .free).turnFirst .block).io.schedule = .block :: []
      ∧ decode (stepCode ((at' .running .top .free).turnFirst .block)) = .ok .cyTop
      ∧ (at' .running .top .free).io.schedule = [] ∧ decode (stepCode (at' .running .top .free)) = .ok .cyTop := by decide

theorem test_hyp_QuiescentBlockRests :
    (at' .idle .top .free).io.schedule = [] ∧ (at' .idle .top .free).reg.state = .idle
      ∧ (at' .idle .top .free).seq.state = .free := by decide

theorem test_hyp_ResetStepGivesResetValues :
    ((at' .running .sleep .free).turnFirst .reset).io.schedule = .reset :: [] := by decide

theorem test_hyp_RequestsBeginTheirTransaction :
    (at' .idle .top .free).seq.state = .free ∧ ((0x42 : Byte) = 0x46 ∨ (0x42 : Byte) = 0x42)
      ∧ (0x45 : Byte) ≠ 0x46 ∧ (0x45 : Byte) ≠ 0x42 := by decide

theorem test_hyp_RepliesMatchByTag :
    (waiting .flow 0 []).seq.state = .wait ∧ ([1, 2, 3] : List Byte).length ≠ 2 ∧ ([1] : List Byte).length ≠ 2
      ∧ (0x53 : Byte) ≠ 0x4D ∧ (0x53 : Byte) ≠ 0x46 ∧ (0x53 : Byte) ≠ 0x54 := by decide

theorem test_hyp_SeekingStoresOnlyAStartByte :
    (waiting .test 0 []).seq.state = .wait ∧ (waiting .test 0 []).rx.count.val = 0 ∧ (waiting .test 0 []).rx.buf.wf
      ∧ (0xAB : Byte) ≠ 0xAA := by decide

theorem test_hyp_LengthByteIsRecordedOrDiscarded :
    (waiting .test 0 [0xAA]).seq.state = .wait ∧ (waiting .test 0 [0xAA]).rx.count.val = 1
      ∧ (waiting .test 0 [0xAA]).rx.buf.wf ∧ (3 : Byte).toNat < 4 ∧ 4 ≤ (4 : Byte).toNat ∧ 4 ≤ (255 : Byte).toNat := by
  decide

theorem test_hyp_DataByteIsAppended :
    (waiting .test 4 [0xAA, 4]).seq.state = .wait ∧ 2 ≤ (waiting .test 4 [0xAA, 4]).rx.count.val
      ∧ (waiting .test 4 [0xAA, 4]).rx.count.val + 1 < (waiting .test 4 [0xAA, 4]).rx.len.toNat
      ∧ (waiting .test 4 [0xAA, 4]).rx.buf.wf := by decide

/-- A capture that validates on its last byte FA and does not on FB. -/
theorem test_hyp_LastByteEmitsAValidFrame :
    (waiting .test 4 [0xAA, 4, 0x54]).seq.state = .wait ∧ 2 ≤ (waiting .test 4 [0xAA, 4, 0x54]).rx.count.val
      ∧ (waiting .test 4 [0xAA, 4, 0x54]).rx.count.val + 1 = (waiting .test 4 [0xAA, 4, 0x54]).rx.len.toNat
      ∧ (waiting .test 4 [0xAA, 4, 0x54]).rx.buf.wf
      ∧ codecValidate ((waiting .test 4 [0xAA, 4, 0x54]).rx.buf.readRange 0 3 ++ [0xFA]) 4 = true
      ∧ codecValidate ((waiting .test 4 [0xAA, 4, 0x54]).rx.buf.readRange 0 3 ++ [0xFB]) 4 = false := by decide

theorem test_hyp_CaptureTakesItsDeclaredLength :
    (at' .idle .top .free).rx.count.val = 0 ∧ (at' .idle .top .free).rx.buf.wf ∧ 4 ≤ (4 : Byte).toNat
      ∧ ([0x54, 0xFA] : List Byte).length + 2 = (4 : Byte).toNat ∧ 4 ≤ (255 : Byte).toNat
      ∧ (List.replicate 253 (0 : Byte)).length + 2 = (255 : Byte).toNat := by decide +kernel

theorem test_hyp_OneFrameAmidGarbage :
    codecEncode 0x54 [] = .ok [0xAA, 0x04, 0x54, 0xFA] ∧ (0xAA : Byte) ∉ ([0x13, 0x00] : List Byte)
      ∧ (at' .idle .top .free).rx.count.val = 0 ∧ (at' .idle .top .free).rx.buf.wf := by decide

theorem test_hyp_SeqWriteSendsTheFrameAndWaits :
    (at' .running .flowTxn .write).seq.state = .write
      ∧ State.nextWriteAnswer { at' .running .flowTxn .write with io := { Io.reset with writeAnswers := [.ok] } } = .ok
      ∧ State.nextWriteAnswer { at' .running .flowTxn .write with io := { Io.reset with writeAnswers := [.error] } }
        = .error := by decide

/-- The last poll of the budget and the one past it, and the three answers of a read. -/
theorem test_hyp_SeqPollSpendsOneReadAttempt :
    (withSeq (waiting .test 0 []) fun q => { q with polls := 8 }).cfg.maxPolls ≤ 8
      ∧ 7 < (withSeq (waiting .test 0 []) fun q => { q with polls := 7 }).cfg.maxPolls
      ∧ (waiting .test 0 []).seq.state = .wait
      ∧ (State.transportRead { waiting .test 0 [] with io := { Io.reset with readAnswers := [.error] } }).1 = .error
      ∧ (State.transportRead { waiting .test 0 [] with io := { Io.reset with readAnswers := [.noData] } }).1 = .noData
      ∧ (State.transportRead { waiting .test 0 [] with io := { Io.reset with readAnswers := [.byte 5] } }).1
        = .byte 5 := by decide

theorem test_hyp_EveryTransactionEnds : (at' .idle .top .free).seq.state = .free := by decide

/-- The block with these read answers given and the next write accepted. -/
def linked (l : List ReadAnswer) : State :=
  { at' .idle .top .free with io := { Io.reset with writeAnswers := [.ok], readAnswers := l } }

theorem test_hyp_SilentDeviceGivesNoResponse :
    (linked (List.replicate 8 .noData)).seq.state = .free ∧ (Request.motor 0x46 200 1).valid = true
      ∧ (linked (List.replicate 8 .noData)).nextWriteAnswer = .ok
      ∧ (linked (List.replicate 8 .noData)).cfg.maxPolls ≤ 8
      ∧ (linked (List.replicate 8 .noData)).io.readAnswers = List.replicate 8 .noData := by decide

theorem test_hyp_EchoAcknowledgesMotorAndTest :
    (linked []).seq.state = .free ∧ (linked []).rx.count.val = 0 ∧ (linked []).rx.buf.wf
      ∧ (linked []).nextWriteAnswer = .ok ∧ 7 ≤ (linked []).cfg.maxPolls ∧ (linked []).cfg.maxPolls ≤ 4 + 4
      ∧ (linked (([0xAA, 0x07, 0x4D, 0x46, 200, 1, 0x6F] : List Byte).map .byte)).io.readAnswers
        = [0xAA, 0x07, 0x4D, 0x46, 200, 1, 0xE0 ^^^ 0x46 ^^^ 200 ^^^ 1].map .byte ++ [] := by decide

theorem test_hyp_StartRunsFromIdleWithATarget :
    (at' .idle .top .free).reg.state = .idle ∧ 0 < (1 : Half).toNat ∧ (at' .idle .top .free).reg.targetFlow.toNat = 0
      ∧ (withReg (at' .idle .top .free) fun r => { r with targetFlow := 1 }).reg.targetFlow = 1
      ∧ (at' .test .motorTxn .wait).reg.state ≠ .idle := by decide

theorem test_hyp_StopOnlyRaisesTheFlag :
    (at' .running .sleep .free).reg.state = .running ∧ (at' .fullyOpen .top .free).reg.state ≠ .running := by decide

theorem test_hyp_OneShotTakesTheDistance :
    (at' .idle .top .free).reg.state = .idle ∧ (at' .running .top .free).reg.state ≠ .idle := by decide

theorem test_hyp_ConnectivityTestReportsTheLink :
    (at' .idle .top .free).reg.state = .idle ∧ (at' .fullyClose .top .free).reg.state ≠ .idle
      ∧ (at' .test .motorTxn .done).reg.state = .test ∧ (at' .test .motorTxn .done).reg.phase = .motorTxn
      ∧ (at' .test .motorTxn .done).seq.state = .done := by decide

theorem test_hyp_WrongStateOperationsAreIgnored :
    (at' .running .top .free).reg.state ≠ .idle ∧ (at' .idle .top .free).reg.state ≠ .running
      ∧ ((6 : BitVec 3) = 6 ∨ (6 : BitVec 3) = 7) ∧ ((7 : BitVec 3) = 6 ∨ (7 : BitVec 3) = 7) := by decide

theorem test_hyp_HostReadsShowTheRegisters :
    5 ≤ (5 : BitVec 3).toNat ∧ 5 ≤ (7 : BitVec 3).toNat ∧ ((2 : BitVec 3) = 2 ∨ (2 : BitVec 3) = 3)
      ∧ ((3 : BitVec 3) = 2 ∨ (3 : BitVec 3) = 3) ∧ 4 ≤ (4 : BitVec 3).toNat ∧ 4 ≤ (7 : BitVec 3).toNat := by decide

theorem test_hyp_CycleTopPollsTheStopFlag :
    (at' .running .top .free).reg.state = .running ∧ (at' .running .top .free).reg.phase = .top
      ∧ (at' .running .top .free).seq.state = .free ∧ (at' .running .top .free).reg.stopFlag = false
      ∧ (withReg (at' .running .top .free) fun r => { r with stopFlag := true }).reg.stopFlag = true := by decide

theorem test_hyp_FailedTransactionsSkipToSleep :
    (withSeq (at' .running .flowTxn .done) fun q => { q with result := .noResponse }).seq.result ≠ .ok
      ∧ (at' .running .flowTxn .done).reg.phase = .flowTxn ∧ (at' .running .motorTxn .done).reg.phase = .motorTxn
      ∧ (at' .running .motorTxn .done).seq.state = .done ∧ (at' .running .flowTxn .done).reg.state = .running := by decide

/-- Rates 74 below, 75 and 125 inside at both ends, 126 above the band of a target of 100 with 1000 ticks elapsed, and
no time elapsed. -/
theorem test_hyp_SamplePublishesAndCorrects :
    (sampled 1000 74 100).reg.state = .running ∧ (sampled 1000 74 100).reg.phase = .flowTxn
      ∧ (sampled 1000 74 100).seq.state = .done ∧ (sampled 1000 74 100).seq.result = .ok
      ∧ ((1000 : Nat) : Int) = (((sampled 1000 74 100).now.1 : Int) - ((sampled 1000 74 100).reg.lastSampleTime : Int))
        % (2 : Int) ^ (sampled 1000 74 100).cfg.timeW
      ∧ (74 : Rat) = ((sampled 1000 74 100).seq.value.toNat : Rat) * (sampled 1000 74 100).cfg.cal
        / (((1000 : Nat) : Rat) / ((sampled 1000 74 100).cfg.tickHz : Rat))
      ∧ (74 : Rat) < 100 - (sampled 1000 74 100).cfg.tolFrac * 100
      ∧ 100 - (sampled 1000 75 100).cfg.tolFrac * 100 ≤ (75 : Rat)
      ∧ (125 : Rat) ≤ 100 + (sampled 1000 125 100).cfg.tolFrac * 100
      ∧ 100 + (sampled 1000 126 100).cfg.tolFrac * 100 < (126 : Rat)
      ∧ ((0 : Nat) : Int) = (((sampled 0 50 100).now.1 : Int) - ((sampled 0 50 100).reg.lastSampleTime : Int))
        % (2 : Int) ^ (sampled 0 50 100).cfg.timeW
      ∧ (withSeq (sampled 0 0 0) fun q => { q with result := .transportError }).seq.result ≠ .ok := by decide +kernel

theorem test_hyp_BandComparisonsAreIntegral :
    params.cal = ((1 : Nat) : Rat) / ((1 : Nat) : Rat) ∧ params.tolFrac = ((1 : Nat) : Rat) / ((4 : Nat) : Rat)
      ∧ (0 : Nat) < 1 ∧ (1 : Nat) ≤ 4 := by decide +kernel

theorem test_hyp_AcknowledgedMoveUpdatesThePosition :
    (at' .running .motorTxn .done).reg.state = .running ∧ (at' .running .motorTxn .done).reg.phase = .motorTxn
      ∧ (at' .running .motorTxn .done).seq.state = .done := by decide

theorem test_hyp_WakeReturnsToTheTop :
    (at' .running .sleep .free).reg.state = .running ∧ (at' .running .sleep .free).reg.phase = .sleep
      ∧ (at' .running .sleep .free).seq.state = .free := by decide

/-- Distances 200, 199 and 1, in both operations. -/
theorem test_hyp_OneShotMovesBySizeAndRemainder :
    (at' .fullyOpen .top .free).reg.phase = .top ∧ (at' .fullyClose .top .free).seq.state = .free
      ∧ ((at' .fullyClose .top .free).reg.state = .fullyOpen ∨ (at' .fullyClose .top .free).reg.state = .fullyClose)
      ∧ 200 ≤ (withReg (at' .fullyOpen .top .free) fun r => { r with osRem := 200 }).reg.osRem
      ∧ (withReg (at' .fullyClose .top .free) fun r => { r with osRem := 199 }).reg.osRem < 200
      ∧ 0 < (withReg (at' .fullyOpen .top .free) fun r => { r with osRem := 1 }).reg.osRem := by decide

theorem test_hyp_OneShotGoesOnAndEndsAtTheBound :
    (at' .fullyOpen .motorTxn .done).reg.phase = .motorTxn ∧ (at' .fullyOpen .motorTxn .done).seq.state = .done
      ∧ (at' .fullyClose .top .free).reg.phase = .top ∧ (at' .fullyClose .top .free).seq.state = .free
      ∧ (at' .fullyClose .top .free).reg.osRem = 0
      ∧ ((at' .fullyClose .top .free).reg.state = .fullyOpen ∨ (at' .fullyClose .top .free).reg.state = .fullyClose) := by
  decide

theorem test_hyp_RegistersChangeOnlyByTheirOwners :
    after (fun t => t.reg.phase) (exec .cyWake (at' .running .sleep .free)) = some .top := by decide

theorem test_hyp_OperationsOutsideTheirStateAreRefused :
    (at' .test .motorTxn .wait).seq.state ≠ .free ∧ (at' .test .motorTxn .write).seq.state ≠ .wait
      ∧ (at' .test .motorTxn .wait).seq.state ≠ .write ∧ (at' .test .motorTxn .wait).reg.state ≠ .running
      ∧ (at' .test .motorTxn .wait).reg.state ≠ .fullyOpen ∧ (at' .test .motorTxn .wait).reg.state ≠ .fullyClose
      ∧ (at' .idle .top .free).reg.state ≠ .test := by decide

/-- A state inside FULLY_OPEN that meets the invariant, and whose next step goes on. -/
theorem test_hyp_Inv_fullyOpen :
    Inv (withReg (at' .fullyOpen .top .free) fun r => { r with osRem := 1850, currentSteps := 150 }) where
  rx := ⟨by decide, by decide, by decide, by decide⟩
  seq := ⟨by decide, by decide, by decide⟩
  reg := ⟨by decide, by decide, Or.inl rfl, by decide, by decide, ⟨by decide +kernel, fun _ => rfl⟩, by decide⟩
  busy := by decide

theorem test_hyp_InvariantIsKeptByEveryStep :
    after (fun t => t.seq.state)
      (step (withReg (at' .fullyOpen .top .free) fun r => { r with osRem := 1850, currentSteps := 150 })) = some .write := by
  decide

/-- A state of Running with the stop flag that meets the invariant. -/
theorem test_hyp_Inv_stopping :
    Inv (withReg (at' .running .sleep .free) fun r => { r with stopFlag := true }) where
  rx := ⟨by decide, by decide, by decide, by decide⟩
  seq := ⟨by decide, by decide, by decide⟩
  reg := ⟨by decide, by decide, trivial, by decide, by decide, ⟨by decide +kernel, fun _ => rfl⟩, by decide⟩
  busy := by decide

theorem test_hyp_EveryOperationReachesQuiescence :
    (withReg (at' .running .sleep .free) fun r => { r with stopFlag := true }).io.schedule = []
      ∧ (withReg (at' .running .sleep .free) fun r => { r with stopFlag := true }).reg.stopFlag = true
      ∧ (withReg (at' .fullyOpen .top .free) fun r => { r with osRem := 1850, currentSteps := 150 }).io.schedule = []
      ∧ (withReg (at' .fullyOpen .top .free) fun r => { r with osRem := 1850, currentSteps := 150 }).reg.state
        ≠ .running := by decide

end Sys2Proof.Tests
end

section
/-! How one step reads the schedule (R5, R35; log 1): whose turn is taken, what the turn comes to, and what `step`
does with it. -/

namespace Sys2Proof.Machine

/-! ### The turn that is next -/

theorem takeTurn_of_schedule_cons {s : State} {t : Turn} {rest : List Turn} (h : s.io.schedule = t :: rest) :
    takeTurn s = (t, { s with io := { s.io with schedule := rest } }) := by
  simp only [takeTurn, h]

theorem takeTurn_of_schedule_nil {s : State} (h : s.io.schedule = []) : takeTurn s = (.block, s) := by
  simp only [takeTurn, h]

/-! ### What a turn comes to -/

/-- The enabled step of the block is read from its own registers, none of which the environment holds. -/
@[simp] theorem stepCode_with_io (s : State) (e : Io) : stepCode { s with io := e } = stepCode s := rfl

theorem pick_host_of_decode {a : HostAccess} {i : Instr} (s : State) (h : decode (.host a) = .ok i) :
    pick (.host a) s = .run i := by
  simp only [pick, h]

theorem pick_block_of_decode {s : State} {i : Instr} (h : decode (stepCode s) = .ok i) :
    pick .block s = .run i := by
  simp only [pick, h]

/-! ### The step of a turn that runs an operation -/

theorem step_of_pick_run {s u : State} {t : Turn} {i : Instr} (hturn : takeTurn s = (t, u))
    (hpick : pick t u = .run i) : step s = exec i u := by
  simp only [step, hturn, hpick]

theorem step_host_turn {s : State} {a : HostAccess} {rest : List Turn} {i : Instr}
    (hsched : s.io.schedule = .host a :: rest) (hdec : decode (.host a) = .ok i) :
    step s = exec i { s with io := { s.io with schedule := rest } } :=
  step_of_pick_run (takeTurn_of_schedule_cons hsched) (pick_host_of_decode _ hdec)

theorem step_block_turn {s : State} {rest : List Turn} {i : Instr}
    (hsched : s.io.schedule = .block :: rest) (hdec : decode (stepCode s) = .ok i) :
    step s = exec i { s with io := { s.io with schedule := rest } } :=
  step_of_pick_run (takeTurn_of_schedule_cons hsched)
    (pick_block_of_decode (by rw [stepCode_with_io]; exact hdec))

theorem step_schedule_nil {s : State} {i : Instr} (hsched : s.io.schedule = [])
    (hdec : decode (stepCode s) = .ok i) : step s = exec i s :=
  step_of_pick_run (takeTurn_of_schedule_nil hsched) (pick_block_of_decode hdec)

/-- Settles O11: the turn at the head of the schedule, or the block's where there is none, is taken off, and the
operation decoded for it runs. -/
theorem stepRunsTheDecodedOperation : Obligations.StepRunsTheDecodedOperation := fun _ =>
  ⟨fun _ _ _ => step_host_turn, fun _ _ => step_block_turn, fun _ => step_schedule_nil⟩

end Sys2Proof.Machine
end

section
/-! What each operation asks of the state and what it does where that holds, row by row (D34), and which rows a turn
selects: a host access, or the enabled step of the block (R35). -/

namespace Sys2Proof.Machine

/-! ### Precondition and effect of a row -/

/-- The precondition of a row (D34: "enabled by state"). -/
def enabled (i : Instr) (s : State) : Bool :=
  match i with
  | .motor _ _ _ | .flow | .test => s.seq.state == .free
  | .flowR _ _ | .flowBadLen _ | .motorR _ | .testR _ | .frame _ _ => s.seq.state == .wait
  | .rxStart => rxEnabled .start Config.startByte s
  | .rxDrop b => rxEnabled .drop b s
  | .rxBadLen b => rxEnabled .badLen b s
  | .rxLen b => rxEnabled .len b s
  | .rxData b => rxEnabled .data b s
  | .rxLast b => rxEnabled .last b s
  | .setTarget _ | .start | .stop | .fullyOpen | .fullyClose | .testOp => true
  | .reservedOp0 | .reservedOp67 _ | .writeIgnored23 _ | .writeIgnored47 _ | .hostRead _ => true
  | .seqWrite => s.seq.state == .write
  | .seqPoll => s.seq.state == .wait
  | .cyTop => regAt .running .top .free s
  | .cySample => regAt .running .flowTxn .done s
  | .cyAck => regAt .running .motorTxn .done s
  | .cyWake => regAt .running .sleep .free s
  | .osMove => oneShotTop s && decide (0 < s.reg.osRem)
  | .osEnd => oneShotTop s && s.reg.osRem == 0
  | .osNext => inOneShot s && s.reg.phase == .motorTxn && s.seq.state == .done
  | .testDone => regAt .test .motorTxn .done s

/-- The effect of a row where its precondition holds. -/
def effect (i : Instr) (s : State) : State :=
  match i with
  | .motor d st m => seqBegin (.motor d st m) s
  | .flow => seqBegin .flow s
  | .test => seqBegin .test s
  | .flowR l h => deliver ⟨Config.tagFlow, [l, h]⟩ s
  | .flowBadLen p => deliver ⟨Config.tagFlow, p⟩ s
  | .motorR p => deliver ⟨Config.tagMotor, p⟩ s
  | .testR p => deliver ⟨Config.tagTest, p⟩ s
  | .frame t p => deliver ⟨t, p⟩ s
  | .rxStart => rxStartOp s
  | .rxDrop b => rxDropOp b s
  | .rxBadLen b => rxBadLenOp b s
  | .rxLen b => rxLenOp b s
  | .rxData b => rxDataOp b s
  | .rxLast b => handOver (rxLastOp b s)
  | .setTarget v => { s with reg := { s.reg with targetFlow := v } }
  | .start => startOp s
  | .stop => if s.reg.state = .running then { s with reg := { s.reg with stopFlag := true } } else s
  | .fullyOpen =>
    if s.reg.state = .idle then
      { s with reg := { s.reg with
        state := .fullyOpen, phase := .top, osRem := s.cfg.maxTravel - s.reg.currentSteps } }
    else s
  | .fullyClose =>
    if s.reg.state = .idle then
      { s with reg := { s.reg with state := .fullyClose, phase := .top, osRem := s.reg.currentSteps } }
    else s
  | .testOp =>
    if s.reg.state = .idle then
      seqBegin .test { s with reg := { s.reg with state := .test, phase := .motorTxn, testDone := false } }
    else s
  | .reservedOp0 | .reservedOp67 _ | .writeIgnored23 _ | .writeIgnored47 _ => s
  | .hostRead idx => { s with io := { s.io with hRdata := s.hostRegister idx } }
  | .seqWrite => seqWriteOp s
  | .seqPoll => seqPollOp s
  | .cyTop => cyTopOp s
  | .cySample => cySampleOp s
  | .cyAck => cyAckOp s
  | .cyWake => s.toPhase .top
  | .osMove => osMoveOp s
  | .osEnd => { s with reg := { s.reg with currentSteps := oneShotBound s, state := .idle } }
  | .osNext => s.collect.toPhase .top
  | .testDone => testDoneOp s

/-- Every row goes on to its effect where its precondition holds, and is refused elsewhere (log 12). -/
theorem exec_eq_whenEnabled (i : Instr) (s : State) : exec i s = whenEnabled (enabled i s) (effect i s) := by
  cases i <;> rfl

theorem exec_eq_next_iff {i : Instr} {s t : State} : exec i s = .next t ↔ enabled i s = true ∧ effect i s = t := by
  rw [exec_eq_whenEnabled, whenEnabled_eq_next]

theorem exec_of_enabled {i : Instr} {s : State} (h : enabled i s = true) : exec i s = .next (effect i s) :=
  exec_eq_next_iff.mpr ⟨h, rfl⟩

/-! ### The rows of a host access -/

/-- The rows of the host port (R33, R72, R103). -/
inductive HostRow : Instr → Prop where
  | setTarget (v : Half) : HostRow (.setTarget v)
  | start : HostRow .start
  | stop : HostRow .stop
  | fullyOpen : HostRow .fullyOpen
  | fullyClose : HostRow .fullyClose
  | testOp : HostRow .testOp
  | reservedOp0 : HostRow .reservedOp0
  | reservedOp67 (op : BitVec 3) : HostRow (.reservedOp67 op)
  | writeIgnored23 (idx : BitVec 3) : HostRow (.writeIgnored23 idx)
  | writeIgnored47 (idx : BitVec 3) : HostRow (.writeIgnored47 idx)
  | hostRead (idx : BitVec 3) : HostRow (.hostRead idx)

theorem decodeOp_hostRow (op : BitVec 3) : HostRow (decodeOp op) := by
  unfold decodeOp
  split_ifs <;> constructor

theorem decodeHost_hostRow (a : HostAccess) : HostRow (decodeHost a) := by
  unfold decodeHost
  split_ifs
  · exact .setTarget _
  · exact decodeOp_hostRow _
  · exact .writeIgnored23 _
  · exact .writeIgnored47 _
  · exact .hostRead _

/-- No host access can fail (R72). -/
theorem HostRow.enabled {i : Instr} (h : HostRow i) (s : State) : enabled i s = true := by
  cases h <;> rfl

/-! ### The rows of the block's own steps -/

theorem RegState.ofCode_code (r : RegState) : RegState.ofCode r.code = r := by cases r <;> rfl

theorem Phase.ofCode_code (p : Phase) : Phase.ofCode p.code = p := by cases p <;> rfl

theorem SeqState.ofCode_code (q : SeqState) : SeqState.ofCode q.code = q := by cases q <;> rfl

theorem RegState.code_inj {a b : RegState} : a.code = b.code ↔ a = b :=
  (Function.LeftInverse.injective RegState.ofCode_code).eq_iff

theorem Phase.code_inj {a b : Phase} : a.code = b.code ↔ a = b :=
  (Function.LeftInverse.injective Phase.ofCode_code).eq_iff

theorem SeqState.code_inj {a b : SeqState} : a.code = b.code ↔ a = b :=
  (Function.LeftInverse.injective SeqState.ofCode_code).eq_iff

theorem inOneShot_iff {s : State} : inOneShot s = true ↔ s.reg.state = .fullyOpen ∨ s.reg.state = .fullyClose := by
  simp [inOneShot]

/-- The block's own rows, each with what its state registers hold (D34, R200). -/
inductive BlockRow (s : State) : Instr → Prop where
  | seqWrite : s.seq.state = .write → BlockRow s .seqWrite
  | seqPoll : s.seq.state = .wait → BlockRow s .seqPoll
  | cyTop : s.reg.state = .running ∧ s.reg.phase = .top ∧ s.seq.state = .free → BlockRow s .cyTop
  | cySample : s.reg.state = .running ∧ s.reg.phase = .flowTxn ∧ s.seq.state = .done → BlockRow s .cySample
  | cyAck : s.reg.state = .running ∧ s.reg.phase = .motorTxn ∧ s.seq.state = .done → BlockRow s .cyAck
  | cyWake : s.reg.state = .running ∧ s.reg.phase = .sleep ∧ s.seq.state = .free → BlockRow s .cyWake
  | osMove : inOneShot s = true ∧ s.reg.phase = .top ∧ s.seq.state = .free ∧ 0 < s.reg.osRem →
      BlockRow s .osMove
  | osEnd : inOneShot s = true ∧ s.reg.phase = .top ∧ s.seq.state = .free ∧ s.reg.osRem = 0 →
      BlockRow s .osEnd
  | osNext : inOneShot s = true ∧ s.reg.phase = .motorTxn ∧ s.seq.state = .done → BlockRow s .osNext
  | testDone : s.reg.state = .test ∧ s.reg.phase = .motorTxn ∧ s.seq.state = .done → BlockRow s .testDone

/-- The decoder's selection with the registers named instead of their codes. -/
theorem decode_stepCode (s : State) : decode (stepCode s) =
    if s.seq.state = .write then .ok .seqWrite
    else if s.seq.state = .wait then .ok .seqPoll
    else if s.reg.state = .running ∧ s.reg.phase = .top ∧ s.seq.state = .free then .ok .cyTop
    else if s.reg.state = .running ∧ s.reg.phase = .flowTxn ∧ s.seq.state = .done then .ok .cySample
    else if s.reg.state = .running ∧ s.reg.phase = .motorTxn ∧ s.seq.state = .done then .ok .cyAck
    else if s.reg.state = .running ∧ s.reg.phase = .sleep ∧ s.seq.state = .free then .ok .cyWake
    else if inOneShot s = true ∧ s.reg.phase = .top ∧ s.seq.state = .free ∧ 0 < s.reg.osRem then .ok .osMove
    else if inOneShot s = true ∧ s.reg.phase = .top ∧ s.seq.state = .free then .ok .osEnd
    else if inOneShot s = true ∧ s.reg.phase = .motorTxn ∧ s.seq.state = .done then .ok .osNext
    else if s.reg.state = .test ∧ s.reg.phase = .motorTxn ∧ s.seq.state = .done then .ok .testDone
    else .error .noStepEnabled := by
  simp only [inOneShot_iff, ← RegState.code_inj, ← Phase.code_inj, ← SeqState.code_inj]
  simp only [decode, stepCode, decodeStep, decide_eq_true_iff]
  rfl

/-- The row the block's registers select is one of its own, with its registers as the row asks. -/
theorem blockRow_of_decode {s : State} {i : Instr} (h : decode (stepCode s) = .ok i) : BlockRow s i := by
  rw [decode_stepCode] at h
  split_ifs at h with hwrite hpoll htop hsample hack hwake hmove hend hnext htest <;> cases h
  · exact .seqWrite hwrite
  · exact .seqPoll hpoll
  · exact .cyTop htop
  · exact .cySample hsample
  · exact .cyAck hack
  · exact .cyWake hwake
  · exact .osMove hmove
  · obtain ⟨hstate, hphase, hseq⟩ := hend
    exact .osEnd ⟨hstate, hphase, hseq, Nat.eq_zero_of_not_pos fun hpos => hmove ⟨hstate, hphase, hseq, hpos⟩⟩
  · exact .osNext hnext
  · exact .testDone htest

/-- The registers of one row select no other. -/
theorem BlockRow.decode_eq {s : State} {i : Instr} (h : BlockRow s i) : decode (stepCode s) = .ok i := by
  rw [decode_stepCode]
  cases h with
  | seqWrite h => simp [h]
  | seqPoll h => simp [h]
  | cyTop h => simp [h]
  | cySample h => simp [h]
  | cyAck h => simp [h]
  | cyWake h => simp [h]
  | osMove h =>
    obtain ⟨hstate, h⟩ := h
    rcases inOneShot_iff.mp hstate with hs | hs <;> simp [hstate, hs, h]
  | osEnd h =>
    obtain ⟨hstate, h⟩ := h
    rcases inOneShot_iff.mp hstate with hs | hs <;> simp [hstate, hs, h]
  | osNext h =>
    obtain ⟨hstate, h⟩ := h
    rcases inOneShot_iff.mp hstate with hs | hs <;> simp [hstate, hs, h]
  | testDone h =>
    have hstate : inOneShot s = false := by simp [inOneShot, h]
    simp [hstate, h]

theorem BlockRow.enabled {s : State} {i : Instr} (h : BlockRow s i) : enabled i s = true := by
  cases h <;> simp [Machine.enabled, regAt, oneShotTop, *]

/-! ### What one step comes to -/

/-- Taking a turn changes the environment alone. -/
theorem takeTurn_frame (s : State) : ∃ e : Io, (takeTurn s).2 = { s with io := e } := by
  unfold takeTurn
  split
  · exact ⟨_, rfl⟩
  · exact ⟨s.io, rfl⟩

/-- What a turn comes to: a host row, the block's enabled row, the reset, or nothing; stuck is the block's turn alone,
where no row is enabled and the block is not quiescent (log 13). -/
theorem pick_cases (t : Turn) (s : State) :
    (∃ i, (HostRow i ∨ BlockRow s i) ∧ pick t s = .run i) ∨ pick t s = .reset ∨ pick t s = .rest
      ∨ ((∀ i, ¬ BlockRow s i) ∧ quiescent s = false ∧ pick t s = .stuck) := by
  cases t with
  | host a => exact .inl ⟨_, .inl (decodeHost_hostRow a), pick_host_of_decode s rfl⟩
  | reset => exact .inr (.inl rfl)
  | block =>
    cases hdec : decode (stepCode s) with
    | ok i => exact .inl ⟨i, .inr (blockRow_of_decode hdec), pick_block_of_decode hdec⟩
    | error e =>
      have hnone : ∀ i, ¬ BlockRow s i := fun i hi => by simp [hi.decode_eq] at hdec
      cases hq : quiescent s with
      | true => exact .inr (.inr (.inl (by simp [pick, hdec, hq])))
      | false => exact .inr (.inr (.inr ⟨hnone, rfl, by simp [pick, hdec, hq]⟩))

/-- Everything a step can do, from the state whose turn has been taken off its schedule. -/
theorem step_cases (s : State) : ∃ (e : Io) (u : State), u = { s with io := e } ∧
    ((∃ i, (HostRow i ∨ BlockRow u i) ∧ step s = .next (effect i u))
      ∨ step s = .next u.blockReset ∨ step s = .next u
      ∨ ((∀ i, ¬ BlockRow u i) ∧ quiescent u = false ∧ step s = .fault .noRuleEnabled)) := by
  obtain ⟨e, hu⟩ := takeTurn_frame s
  refine ⟨e, (takeTurn s).2, hu, ?_⟩
  rcases pick_cases (takeTurn s).1 (takeTurn s).2 with ⟨i, hrow, hp⟩ | hp | hp | ⟨hnone, hq, hp⟩
  · have hen : enabled i (takeTurn s).2 = true := hrow.elim (·.enabled _) (·.enabled)
    exact .inl ⟨i, hrow, by simp only [step, hp, exec_of_enabled hen]⟩
  · exact .inr (.inl (by simp only [step, hp]))
  · exact .inr (.inr (.inl (by simp only [step, hp])))
  · exact .inr (.inr (.inr ⟨hnone, hq, by simp only [step, hp]⟩))

/-- Settles O48: a turn selects only rows whose precondition holds, and `exec` refuses nothing else. -/
theorem stepIsNeverRefused : Obligations.StepIsNeverRefused := by
  intro s r
  obtain ⟨e, u, -, ⟨i, -, h⟩ | h | h | ⟨-, -, h⟩⟩ := step_cases s <;> simp [h]

end Sys2Proof.Machine
end

section
/-! The invariant of R40 unit by unit: what it says after reset, and which changes of the receiver, the sequencer and
the regulator keep each part of it. -/

namespace Sys2Proof.Machine

/-! ### After reset -/

theorem RxInv.reset : RxInv RxRegs.reset where
  seeking _ := rfl
  pending h := absurd h (by decide)
  accumulating h := absurd h (by decide)
  canonical := Memory.wf_nil

theorem SeqInv.reset (cfg : Params) : SeqInv cfg SeqRegs.reset where
  polls_le := Nat.zero_le _
  request h := absurd h (by decide)
  result := by decide

theorem RegInv.reset (cfg : Params) : RegInv cfg (RegRegs.reset cfg.initSteps) where
  position := cfg.initSteps_le
  remaining := Nat.zero_le _
  place := rfl
  move h := absurd h (by simp [RegRegs.reset])
  sampleTime := Nat.two_pow_pos _
  flow := ⟨le_rfl, fun _ => rfl⟩
  lastResult := by simp [RegRegs.reset]

/-- The units' reset values meet the invariant whatever the environment holds. -/
theorem inv_of_reset_units (p : Params) (e : Io) :
    Inv { cfg := p, rx := RxRegs.reset, seq := SeqRegs.reset, reg := RegRegs.reset p.initSteps, io := e } where
  rx := RxInv.reset
  seq := SeqInv.reset p
  reg := RegInv.reset p
  busy := by simp [RegRegs.reset, SeqRegs.reset]

/-- Settles O45: INIT_STEPS is inside the travel, and every other register starts in the range of its unit. -/
theorem invariantHoldsAtReset : Obligations.InvariantHoldsAtReset :=
  ⟨inv_of_reset_units _ _, fun p => inv_of_reset_units p _⟩

theorem inv_blockReset (s : State) : Inv s.blockReset := inv_of_reset_units s.cfg s.io

/-- Settles O14: R36's table read off the reset state. -/
theorem resetStateValues : Obligations.ResetStateValues :=
  ⟨rfl, rfl, rfl, rfl, rfl, rfl, rfl, rfl, rfl, rfl, rfl, rfl, rfl, rfl, rfl⟩

/-! ### The receiver -/

/-- Reset-to-empty (R22) keeps the buffer, and so its canonical form. -/
theorem RxInv.empty {r : RxRegs} (h : RxInv r) : RxInv { r with count := 0, len := 0 } where
  seeking _ := rfl
  pending h1 := absurd h1 (by simp)
  accumulating h2 := absurd h2 (by simp)
  canonical := h.canonical

/-! ### The sequencer -/

/-- Whether a result is one that a run of the block can end a transaction with (R252, R255). -/
def Result.reachable (r : Result) : Prop := r ≠ .invalidDirection ∧ r ≠ .payloadTooLarge

/-- An encoded frame passes `validate` with its own length. -/
theorem codecValidate_frameBytes (c : Byte) {p : List Byte} (h : p.length ≤ 251) :
    codecValidate (frameBytes c p) (p.length + 4) = true := by
  obtain ⟨hlen, htake, hsum⟩ := codecValidate_frameBytes_take (c := c) h
  refine (codecValidate_iff _ _).mpr ⟨by omega, by omega, rfl, hlen, ?_⟩
  rw [show p.length + 4 - 1 = p.length + 3 by omega, htake, hsum]

/-- The frame of a request validates and has one of the two lengths of R24. -/
theorem requestFrame_valid (q : Request) :
    codecValidate (frameBytes q.kind.tag q.payload) (frameBytes q.kind.tag q.payload).length = true
      ∧ ((frameBytes q.kind.tag q.payload).length = 4 ∨ (frameBytes q.kind.tag q.payload).length = 7) := by
  rw [frameBytes_length]
  have hlen : q.payload.length = 0 ∨ q.payload.length = 3 := by cases q <;> simp [Request.payload]
  exact ⟨codecValidate_frameBytes _ (by omega), by omega⟩

section
variable {cfg : Params} {q : SeqRegs}

theorem SeqInv.begin (h : SeqInv cfg q) (r : Request) :
    SeqInv cfg { q with kind := r.kind, frame := frameBytes r.kind.tag r.payload, state := .write } :=
  { h with request := fun _ => requestFrame_valid r }

theorem SeqInv.done (h : SeqInv cfg q) {r : Result} (hr : r.reachable) (v : Half) :
    SeqInv cfg { q with value := v, result := r, state := .done } where
  polls_le := h.polls_le
  request hw := nomatch hw
  result := hr

theorem SeqInv.free (h : SeqInv cfg q) : SeqInv cfg { q with state := .free } :=
  { h with request := fun hw => nomatch hw }

theorem SeqInv.wait (h : SeqInv cfg q) : SeqInv cfg { q with polls := 0, state := .wait } where
  polls_le := Nat.zero_le _
  request hw := nomatch hw
  result := h.result

theorem SeqInv.poll (h : SeqInv cfg q) (hlt : q.polls < cfg.maxPolls) : SeqInv cfg { q with polls := q.polls + 1 } :=
  { h with polls_le := hlt }

end

/-! ### The regulator -/

section
variable {cfg : Params} {r : RegRegs}

/-- A change of place away from a correction in flight, with position and distance inside the travel. -/
theorem RegInv.moveTo (h : RegInv cfg r) {n m : Nat} {st : RegState} {p : Phase} (hn : n ≤ cfg.maxTravel)
    (hm : m ≤ cfg.maxTravel) (hl : legalPlace st p) (hc : st = .running → p ≠ .motorTxn) :
    RegInv cfg { r with currentSteps := n, osRem := m, state := st, phase := p } :=
  { h with position := hn, remaining := hm, place := hl, move := fun hs hp => absurd hp (hc hs) }

/-- A change of place alone. -/
theorem RegInv.relocate (h : RegInv cfg r) {st : RegState} {p : Phase} (hl : legalPlace st p)
    (hc : st = .running → p ≠ .motorTxn) : RegInv cfg { r with state := st, phase := p } :=
  h.moveTo h.position h.remaining hl hc

/-- The result of a finished transaction is kept (R179). -/
theorem RegInv.collect (h : RegInv cfg r) {c : Result} (hc : c.reachable) : RegInv cfg { r with lastResult := c } :=
  { h with lastResult := hc }

/-- A sample is published (R205, R206). -/
theorem RegInv.publish (h : RegInv cfg r) {t : Nat} {f : Rat} (ht : t < 2 ^ cfg.timeW) (hf : 0 ≤ f) :
    RegInv cfg { r with lastSampleTime := t, flowOut := f, flowValid := true } :=
  { h with sampleTime := ht, flow := ⟨hf, fun hv => nomatch hv⟩ }

/-- A correction put in flight keeps the position it will lead to inside the travel (R208, R209). -/
theorem RegInv.beginMove (h : RegInv cfg r) (hrun : r.state = .running) {target n : Nat} {f : Rat} {dir : Byte}
    (hcorr : correction cfg target r.currentSteps f = some (dir, n)) :
    RegInv cfg { r with mvDir := dir, mvN := BitVec.ofNat 8 n, phase := .motorTxn } := by
  obtain ⟨-, h200, hdir⟩ := correction_some hcorr
  have hbyte : (BitVec.ofNat 8 n).toNat = n := by rw [BitVec.toNat_ofNat]; omega
  have hpos := h.position
  refine { h with place := ?_, move := fun _ _ => ?_ }
  · simp [hrun, legalPlace]
  · simp only [hbyte]
    exact hdir.imp (fun ⟨hd, hn⟩ => ⟨hd, by omega⟩) id

/-- The position after an acknowledged correction is inside the travel (R210). -/
theorem RegInv.movedSteps_le (h : RegInv cfg r) (hrun : r.state = .running) (hmotor : r.phase = .motorTxn) :
    movedSteps cfg r ≤ cfg.maxTravel := by
  have hpos := h.position
  unfold movedSteps
  rcases h.move hrun hmotor with ⟨hdir, hle⟩ | ⟨hdir, hle⟩
  · rwa [if_pos hdir]
  · rw [if_neg (hdir ▸ (dirOpen_ne_dirClose cfg).symm)]
    omega

end

/-! ### The units together -/

section
variable {s : State}

theorem Inv.with_io (h : Inv s) (e : Io) : Inv { s with io := e } := { h with }

theorem Inv.with_rx (h : Inv s) {r : RxRegs} (hr : RxInv r) : Inv { s with rx := r } := { h with rx := hr }

/-- A change of the sequencer's registers inside a transaction. -/
theorem Inv.with_seq (h : Inv s) {q : SeqRegs} (hq : SeqInv s.cfg q) (hbusy : s.seq.state ≠ .free)
    (hbusy' : q.state ≠ .free) : Inv { s with seq := q } :=
  { h with seq := hq, busy := h.busy.trans (iff_of_true hbusy hbusy') }

/-- A change of the regulator's registers that keeps its phase. -/
theorem Inv.with_reg (h : Inv s) {r : RegRegs} (hr : RegInv s.cfg r) (hp : r.phase = s.reg.phase) :
    Inv { s with reg := r } :=
  { h with reg := hr, busy := by simpa only [hp] using h.busy }

/-- A request begun together with the phase that waits for it (R171). -/
theorem Inv.begin (h : Inv s) (q : Request) {r : RegRegs} (hr : RegInv s.cfg r)
    (hp : r.phase = .flowTxn ∨ r.phase = .motorTxn) :
    Inv { s with
      reg := r
      seq := { s.seq with kind := q.kind, frame := frameBytes q.kind.tag q.payload, state := .write } } :=
  { h with seq := h.seq.begin q, reg := hr, busy := iff_of_true hp (by simp) }

/-- A finished transaction collected together with the phase that follows it (R179). -/
theorem Inv.collect (h : Inv s) {r : RegRegs} (hr : RegInv s.cfg r) (hp : r.phase = .top ∨ r.phase = .sleep) :
    Inv { s with reg := r, seq := { s.seq with state := .free } } :=
  { h with
    seq := h.seq.free
    reg := hr
    busy := iff_of_false (by rcases hp with hp | hp <;> simp [hp]) (by simp) }

/-- A transaction ended, with whatever value it leaves (R173). -/
theorem Inv.done (h : Inv s) (hbusy : s.seq.state ≠ .free) {c : Result} (hc : c.reachable) (v : Half) :
    Inv { s with seq := { s.seq with value := v, result := c, state := .done } } :=
  h.with_seq (h.seq.done hc v) hbusy (by simp)

/-- R40 item 6. -/
theorem Inv.phase_of_idle (h : Inv s) (hidle : s.reg.state = .idle) : s.reg.phase = .top := by
  have hplace := h.reg.place
  rwa [hidle] at hplace

end

end Sys2Proof.Machine
end

section
/-! Every row that a step selects keeps the invariant of R40, and the invariant leaves no turn of the block without a
row unless the block is quiescent. -/

namespace Sys2Proof.Machine

section
variable {s : State}

/-! ### The host's rows -/

theorem Inv.startOp (h : Inv s) : Inv (startOp s) := by
  unfold Machine.startOp
  split_ifs with hstart
  · obtain ⟨hidle, -⟩ := hstart
    have hreg : RegInv s.cfg { s.reg with
        state := .running, phase := .top, stopFlag := false, lastSampleTime := s.now.1 } :=
      { h.reg.relocate (st := .running) (p := .top) trivial (by simp) with sampleTime := s.now_lt }
    simp only [State.now_state]
    exact (h.with_reg hreg (h.phase_of_idle hidle).symm).with_io _
  · exact h

/-- A one-shot operation entered from Idle with a distance inside the travel (R214, R217). -/
theorem Inv.enterOneShot (h : Inv s) (hidle : s.reg.state = .idle) {st : RegState} {d : Nat}
    (hst : st = .fullyOpen ∨ st = .fullyClose) (hd : d ≤ s.cfg.maxTravel) :
    Inv { s with reg := { s.reg with state := st, phase := .top, osRem := d } } := by
  refine h.with_reg (h.reg.moveTo h.reg.position hd ?_ (by simp)) (h.phase_of_idle hidle).symm
  rcases hst with rfl | rfl <;> exact .inl rfl

theorem Inv.testOp (h : Inv s) : Inv (effect .testOp s) := by
  simp only [effect]
  split_ifs
  · rw [seqBegin_valid rfl]
    exact h.begin .test { h.reg.relocate (st := .test) (p := .motorTxn) rfl (by simp) with } (.inr rfl)
  · exact h

/-- Every host row keeps the invariant. -/
theorem HostRow.keeps_inv {i : Instr} (hrow : HostRow i) (h : Inv s) : Inv (effect i s) := by
  cases hrow with
  | setTarget v => exact h.with_reg { h.reg with } rfl
  | start => exact h.startOp
  | stop =>
    simp only [effect]
    split_ifs
    · exact h.with_reg { h.reg with } rfl
    · exact h
  | fullyOpen =>
    simp only [effect]
    split_ifs with hidle
    · exact h.enterOneShot hidle (.inl rfl) (Nat.sub_le _ _)
    · exact h
  | fullyClose =>
    simp only [effect]
    split_ifs with hidle
    · exact h.enterOneShot hidle (.inr rfl) h.reg.position
    · exact h
  | testOp => exact h.testOp
  | reservedOp0 => exact h
  | reservedOp67 op => exact h
  | writeIgnored23 idx => exact h
  | writeIgnored47 idx => exact h
  | hostRead idx => exact h.with_io _

/-! ### The sequencer's rows -/

theorem Inv.seqWriteOp (h : Inv s) (hw : s.seq.state = .write) : Inv (seqWriteOp s) := by
  have hbusy : s.seq.state ≠ .free := by simp [hw]
  rcases seqWriteOp_cases s with ⟨-, e⟩ | ⟨-, e⟩ <;> rw [e]
  · have hrx : RxInv (if s.cfg.rxClearOnWait then { s.rx with count := 0, len := 0 } else s.rx) := by
      split_ifs
      · exact h.rx.empty
      · exact h.rx
    exact ((h.with_seq h.seq.wait hbusy (by simp)).with_rx hrx).with_io _
  · exact (h.done hbusy (by simp [Result.reachable]) s.seq.value).with_io _

/-- A poll counted inside the budget. -/
theorem Inv.afterRead (h : Inv s) (hw : s.seq.state = .wait) (hlt : s.seq.polls < s.cfg.maxPolls) :
    Inv (afterRead s) :=
  (h.with_seq (h.seq.poll hlt) (by simp [hw]) (by simp [hw])).with_io _

/-- A received byte, with the hand-over of what it completes, keeps the invariant inside a transaction. -/
theorem Inv.rxByte (h : Inv s) (hbusy : s.seq.state ≠ .free) (b : Byte) : Inv (handOver (rxByte b s)) := by
  have hrx : Inv (Machine.rxByte b s).1 ∧ (Machine.rxByte b s).1.seq.state ≠ .free := by
    have hkeep := rxByte_keeps_RxInv b h.rx
    obtain ⟨r, hr⟩ := rxByte_frame b s
    rw [hr] at hkeep ⊢
    exact ⟨h.with_rx hkeep, hbusy⟩
  rcases handOver_cases (Machine.rxByte b s) with e | ⟨v, e⟩ <;> rw [e]
  · exact hrx.1
  · exact hrx.1.done hrx.2 (by simp [Result.reachable]) v

theorem Inv.seqPollOp (h : Inv s) (hw : s.seq.state = .wait) : Inv (seqPollOp s) := by
  have hbusy : s.seq.state ≠ .free := by simp [hw]
  rcases seqPollOp_cases s with ⟨-, e⟩ | ⟨hlt, -, e⟩ | ⟨hlt, -, e⟩ | ⟨hlt, b, -, e⟩ <;> rw [e]
  · exact h.done hbusy (by simp [Result.reachable]) s.seq.value
  · exact (h.afterRead hw hlt).done hbusy (by simp [Result.reachable]) s.seq.value
  · exact h.afterRead hw hlt
  · exact (h.afterRead hw hlt).rxByte hbusy b

/-! ### The Running cycle -/

theorem isDirection_of_correction {p : Params} {target current n : Nat} {f : Rat} {dir : Byte}
    (h : correction p target current f = some (dir, n)) : isDirection dir = true := by
  obtain ⟨-, -, ⟨rfl, -⟩ | ⟨rfl, -⟩⟩ := correction_some h
  · exact isDirection_dirOpen p
  · exact isDirection_dirClose p

theorem Inv.cyTopOp (h : Inv s) (hrun : s.reg.state = .running) (htop : s.reg.phase = .top) : Inv (cyTopOp s) := by
  unfold Machine.cyTopOp
  split_ifs
  · exact h.with_reg { h.reg.relocate (st := .idle) htop (by simp) with } rfl
  · have hl : legalPlace s.reg.state .flowTxn := by simp [hrun, legalPlace]
    rw [seqBegin_valid rfl]
    exact h.begin .flow (h.reg.relocate hl (by simp)) (.inl rfl)

theorem Inv.cySampleOp (h : Inv s) (hrun : s.reg.state = .running) : Inv (cySampleOp s) := by
  have hl : legalPlace s.reg.state .sleep := by simp [hrun, legalPlace]
  rcases cySampleOp_cases s with ⟨-, e⟩ | ⟨-, f, rfl, t, rfl, ⟨-, e⟩ | ⟨dir, n, hcorr, e⟩⟩
  · rw [e]
    exact h.collect ((h.reg.collect h.seq.result).relocate hl (by simp)) (.inr rfl)
  all_goals
    have hpub := (h.reg.collect (c := .ok) (by simp [Result.reachable])).publish s.now_lt
      (rate_nonneg s.cfg s.seq.value.toNat (elapsed s.cfg s.now.1 s.reg.lastSampleTime))
  · rw [e]
    exact (h.collect (hpub.relocate hl (by simp)) (.inr rfl)).with_io _
  · rw [e, beginMove_eq (isDirection_of_correction hcorr)]
    exact (h.begin (.motor dir (BitVec.ofNat 8 n) 1) (hpub.beginMove hrun hcorr) (.inr rfl)).with_io _

theorem Inv.cyAckOp (h : Inv s) (hrun : s.reg.state = .running) (hmotor : s.reg.phase = .motorTxn) :
    Inv (cyAckOp s) := by
  have hl : legalPlace s.reg.state .sleep := by simp [hrun, legalPlace]
  have hreg := h.reg.collect h.seq.result
  unfold Machine.cyAckOp
  split_ifs
  · exact h.collect (hreg.moveTo (hreg.movedSteps_le hrun hmotor) hreg.remaining hl (by simp)) (.inr rfl)
  · exact h.collect (hreg.relocate hl (by simp)) (.inr rfl)

theorem Inv.cyWake (h : Inv s) (hrun : s.reg.state = .running) (hfree : s.seq.state = .free) :
    Inv (s.toPhase .top) :=
  { h with
    reg := h.reg.relocate (by simp [hrun, legalPlace]) (by simp)
    busy := iff_of_false (by simp) (by simpa using hfree) }

/-! ### The one-shot operations and the connectivity test -/

/-- The places of a one-shot operation (R200). -/
theorem legalPlace_oneShot (h : inOneShot s = true) {p : Phase} :
    legalPlace s.reg.state p ↔ p = .top ∨ p = .motorTxn := by
  rcases inOneShot_iff.mp h with hs | hs <;> rw [hs] <;> rfl

theorem not_running_of_inOneShot (h : inOneShot s = true) : s.reg.state ≠ .running := by
  rcases inOneShot_iff.mp h with hs | hs <;> simp [hs]

theorem Inv.osMoveOp (h : Inv s) (hshot : inOneShot s = true) : Inv (osMoveOp s) := by
  have hrem : s.reg.osRem - (oneShotMove s.reg.osRem).1 * (oneShotMove s.reg.osRem).2 ≤ s.cfg.maxTravel :=
    (Nat.sub_le _ _).trans h.reg.remaining
  rw [osMoveOp_eq]
  exact h.begin (.motor (oneShotDir s) _ _)
    (h.reg.moveTo h.reg.position hrem ((legalPlace_oneShot hshot).mpr (.inr rfl))
      fun hrun => absurd hrun (not_running_of_inOneShot hshot)) (.inr rfl)

theorem oneShotBound_le (s : State) : oneShotBound s ≤ s.cfg.maxTravel := by
  unfold oneShotBound
  split_ifs
  · exact le_rfl
  · exact Nat.zero_le _

theorem Inv.osEnd (h : Inv s) (htop : s.reg.phase = .top) : Inv (effect .osEnd s) :=
  h.with_reg (h.reg.moveTo (oneShotBound_le s) h.reg.remaining htop (by simp)) rfl

theorem Inv.osNext (h : Inv s) (hshot : inOneShot s = true) : Inv (s.collect.toPhase .top) :=
  h.collect ((h.reg.collect h.seq.result).relocate ((legalPlace_oneShot hshot).mpr (.inl rfl)) (by simp)) (.inl rfl)

theorem Inv.testDoneOp (h : Inv s) : Inv (testDoneOp s) :=
  h.collect { (h.reg.collect h.seq.result).relocate (st := .idle) (p := .top) rfl (by simp) with } (.inl rfl)

/-- Every row of the block keeps the invariant. -/
theorem BlockRow.keeps_inv {i : Instr} (hrow : BlockRow s i) (h : Inv s) : Inv (effect i s) := by
  cases hrow with
  | seqWrite hwrite => exact h.seqWriteOp hwrite
  | seqPoll hwait => exact h.seqPollOp hwait
  | cyTop hat =>
    obtain ⟨hrun, htop, -⟩ := hat
    exact h.cyTopOp hrun htop
  | cySample hat =>
    obtain ⟨hrun, -⟩ := hat
    exact h.cySampleOp hrun
  | cyAck hat =>
    obtain ⟨hrun, hmotor, -⟩ := hat
    exact h.cyAckOp hrun hmotor
  | cyWake hat =>
    obtain ⟨hrun, -, hfree⟩ := hat
    exact h.cyWake hrun hfree
  | osMove hat =>
    obtain ⟨hshot, -⟩ := hat
    exact h.osMoveOp hshot
  | osEnd hat =>
    obtain ⟨-, htop, -⟩ := hat
    exact h.osEnd htop
  | osNext hat =>
    obtain ⟨hshot, -⟩ := hat
    exact h.osNext hshot
  | testDone _ => exact h.testDoneOp

end

/-- Settles O46: each of the things a step can do keeps the invariant. -/
theorem invariantIsKeptByEveryStep : Obligations.InvariantIsKeptByEveryStep := by
  intro s t h hstep
  obtain ⟨e, u, hu, hcases⟩ := step_cases s
  have hinv : Inv u := hu ▸ h.with_io e
  rcases hcases with ⟨i, hrow, hs⟩ | hs | hs | ⟨-, -, hs⟩ <;> rw [hs] at hstep <;> cases hstep
  · exact hrow.elim (·.keeps_inv hinv) (·.keeps_inv hinv)
  · exact inv_blockReset u
  · exact hinv

/-! ### No turn is stuck -/

/-- Between transactions the phase is Top or Sleep, and in a transaction FlowTxn or MotorTxn (R40 item 4). -/
theorem Inv.phase_of_free {s : State} (h : Inv s) (hfree : s.seq.state = .free) :
    s.reg.phase = .top ∨ s.reg.phase = .sleep := by
  have hidle : ¬(s.reg.phase = .flowTxn ∨ s.reg.phase = .motorTxn) := fun hp => h.busy.mp hp hfree
  cases hp : s.reg.phase <;> simp_all

/-- The row of a block between transactions, by its place (R200). -/
theorem Inv.quiescent_or_blockRow_of_free {s : State} (h : Inv s) (hfree : s.seq.state = .free) :
    quiescent s = true ∨ ∃ i, BlockRow s i := by
  have hplace := h.reg.place
  have oneShotRow (hs : inOneShot s = true) : ∃ i, BlockRow s i := by
    have htop : s.reg.phase = .top := by
      rcases h.phase_of_free hfree with hp | hp
      · exact hp
      · simpa [hp] using (legalPlace_oneShot hs).mp hplace
    rcases Nat.eq_zero_or_pos s.reg.osRem with h0 | hpos
    · exact ⟨_, .osEnd ⟨hs, htop, hfree, h0⟩⟩
    · exact ⟨_, .osMove ⟨hs, htop, hfree, hpos⟩⟩
  cases hs : s.reg.state with
  | idle => exact .inl (by simp [quiescent, hs, hfree])
  | running =>
    rcases h.phase_of_free hfree with hp | hp
    · exact .inr ⟨_, .cyTop ⟨hs, hp, hfree⟩⟩
    · exact .inr ⟨_, .cyWake ⟨hs, hp, hfree⟩⟩
  | stopping => rw [hs] at hplace; exact hplace.elim
  | fullyOpen => exact .inr (oneShotRow (inOneShot_iff.mpr (.inl hs)))
  | fullyClose => exact .inr (oneShotRow (inOneShot_iff.mpr (.inr hs)))
  | test =>
    have hmotor : s.reg.phase = .motorTxn := by rwa [hs] at hplace
    exact absurd hfree (h.busy.mp (.inr hmotor))

/-- The row that collects a finished transaction, by its place (R200). -/
theorem Inv.blockRow_of_done {s : State} (h : Inv s) (hdone : s.seq.state = .done) : ∃ i, BlockRow s i := by
  have hplace := h.reg.place
  have hphase : s.reg.phase = .flowTxn ∨ s.reg.phase = .motorTxn := h.busy.mpr (by simp [hdone])
  have oneShotRow (hs : inOneShot s = true) : ∃ i, BlockRow s i := by
    have hmotor : s.reg.phase = .motorTxn := by
      rcases hphase with hp | hp
      · simpa [hp] using (legalPlace_oneShot hs).mp hplace
      · exact hp
    exact ⟨_, .osNext ⟨hs, hmotor, hdone⟩⟩
  cases hs : s.reg.state with
  | idle => simp [h.phase_of_idle hs] at hphase
  | running =>
    rcases hphase with hp | hp
    · exact ⟨_, .cySample ⟨hs, hp, hdone⟩⟩
    · exact ⟨_, .cyAck ⟨hs, hp, hdone⟩⟩
  | stopping => rw [hs] at hplace; exact hplace.elim
  | fullyOpen => exact oneShotRow (inOneShot_iff.mpr (.inl hs))
  | fullyClose => exact oneShotRow (inOneShot_iff.mpr (.inr hs))
  | test => exact ⟨_, .testDone ⟨hs, by rwa [hs] at hplace, hdone⟩⟩

/-- A state the invariant allows is quiescent or has a row of the block enabled. -/
theorem Inv.quiescent_or_blockRow {s : State} (h : Inv s) : quiescent s = true ∨ ∃ i, BlockRow s i := by
  cases hq : s.seq.state with
  | free => exact h.quiescent_or_blockRow_of_free hq
  | write => exact .inr ⟨_, .seqWrite hq⟩
  | wait => exact .inr ⟨_, .seqPoll hq⟩
  | done => exact .inr (h.blockRow_of_done hq)

/-- Settles O47: the one step that is no next state needs a block neither quiescent nor with a row enabled. -/
theorem noStepIsStuck : Obligations.NoStepIsStuck := by
  intro s h
  obtain ⟨e, u, hu, ⟨i, -, hs⟩ | hs | hs | ⟨hnone, hq, -⟩⟩ := step_cases s
  · exact ⟨_, hs⟩
  · exact ⟨_, hs⟩
  · exact ⟨_, hs⟩
  · rcases (hu ▸ h.with_io e : Inv u).quiescent_or_blockRow with hquiet | ⟨i, hi⟩
    · simp [hquiet] at hq
    · exact (hnone i hi).elim

end Sys2Proof.Machine
end

section
/-! Ownership (R39): which registers a row can change, the regulator's apart from the rest of the state, and the proof
that no row changes a register it does not own. -/

namespace Sys2Proof.Machine

/-- The rows that can change the receiver's registers. -/
def OwnsReceiver (i : Instr) : Prop :=
  i = .seqWrite ∨ i = .seqPoll ∨ i = .rxStart
    ∨ ∃ b, i = .rxBadLen b ∨ i = .rxLen b ∨ i = .rxData b ∨ i = .rxLast b

/-- A change of the regulator's registers by a row that owns each register it changes (R25 to R32, R221). -/
structure RegOwned (i : Instr) (r t : RegRegs) : Prop where
  position : t.currentSteps ≠ r.currentSteps → i = .cyAck ∨ i = .osEnd
  target : t.targetFlow ≠ r.targetFlow → ∃ v, i = .setTarget v
  flow : t.flowOut ≠ r.flowOut ∨ t.flowValid ≠ r.flowValid → i = .cySample
  stopFlag : t.stopFlag ≠ r.stopFlag → i = .start ∨ i = .stop ∨ i = .cyTop
  sampleTime : t.lastSampleTime ≠ r.lastSampleTime → i = .start ∨ i = .cySample
  lastResult : t.lastResult ≠ r.lastResult → i = .cySample ∨ i = .cyAck ∨ i = .osNext ∨ i = .testDone
  linkOk : t.linkOk ≠ r.linkOk → i = .testDone

/-- A change of the state by a row that owns each register it changes (R39). -/
structure Owned (i : Instr) (s t : State) : Prop where
  cfg : t.cfg = s.cfg
  schedule : t.io.schedule = s.io.schedule
  reg : RegOwned i s.reg t.reg
  txLog : t.io.txLog ≠ s.io.txLog → i = .seqWrite
  rx : t.rx ≠ s.rx → OwnsReceiver i

section
variable {i : Instr} {s : State}

theorem RegOwned.refl (i : Instr) (r : RegRegs) : RegOwned i r r := by
  constructor <;> simp

theorem Owned.refl (i : Instr) (s : State) : Owned i s s := by
  constructor <;> simp [RegOwned.refl]

/-- The sequencer's own registers are free to every row. -/
theorem Owned.of_seq (q : SeqRegs) : Owned i s { s with seq := q } := { Owned.refl i s with }

theorem Owned.of_rx (h : OwnsReceiver i) (r : RxRegs) (q : SeqRegs) : Owned i s { s with rx := r, seq := q } :=
  { Owned.refl i s with rx := fun _ => h }

/-- A row of the regulator: its registers, the sequencer's, and calls that leave the schedule and the log of writes.
Ownership is by default read off the updated fields, each of which is unchanged or the row's own. -/
theorem Owned.of_reg (q : SeqRegs) {r : RegRegs} {e : Io} (h : RegOwned i s.reg r := by constructor <;> simp)
    (hsched : e.schedule = s.io.schedule := by rfl) (hlog : e.txLog = s.io.txLog := by rfl) :
    Owned i s { s with reg := r, seq := q, io := e } :=
  { Owned.refl i s with schedule := hsched, reg := h, txLog := fun hne => absurd hlog hne }

/-- A row that does nothing outside a condition. -/
theorem Owned.ite {c : Prop} [Decidable c] {t : State} (h : Owned i s t) : Owned i s (if c then t else s) := by
  split_ifs
  · exact h
  · exact .refl i s

/-! ### The sequencer and the receiver -/

theorem owned_seqBegin (q : Request) : Owned i s (seqBegin q s) := by
  obtain ⟨r, h⟩ := seqBegin_frame q s
  exact h ▸ .of_seq r

theorem owned_deliver (f : Frame) : Owned i s (deliver f s) := by
  obtain ⟨r, h⟩ := handOver_frame (s, some f)
  exact (show deliver f s = { s with seq := r } from h) ▸ .of_seq r

theorem owned_rxLast (b : Byte) : Owned (.rxLast b) s (handOver (rxLastOp b s)) := by
  obtain ⟨r, h⟩ := handOver_frame (rxLastOp b s)
  rw [h, rxLastOp_state]
  exact .of_rx (by simp [OwnsReceiver]) _ _

theorem owned_seqWrite : Owned .seqWrite s (seqWriteOp s) := by
  have hrx : OwnsReceiver .seqWrite := .inl rfl
  rcases seqWriteOp_cases s with ⟨-, h⟩ | ⟨-, h⟩ <;> rw [h]
  · exact { Owned.refl .seqWrite s with txLog := fun _ => rfl, rx := fun _ => hrx }
  · exact { Owned.refl .seqWrite s with txLog := fun _ => rfl }

theorem owned_afterRead : Owned i s (afterRead s) := .of_reg _

theorem owned_seqPoll : Owned .seqPoll s (seqPollOp s) := by
  rcases seqPollOp_cases s with ⟨-, h⟩ | ⟨-, -, h⟩ | ⟨-, -, h⟩ | ⟨-, b, -, h⟩ <;> rw [h]
  · exact .of_seq _
  · exact { owned_afterRead with }
  · exact owned_afterRead
  · obtain ⟨q, hq⟩ := handOver_frame (rxByte b (afterRead s))
    obtain ⟨r, hr⟩ := rxByte_frame b (afterRead s)
    rw [hq, hr]
    exact { owned_afterRead with rx := fun _ => .inr (.inl rfl) }

/-! ### The regulator -/

theorem owned_start : Owned .start s (startOp s) := by
  simp only [startOp, State.now_state]
  exact (Owned.of_reg s.seq).ite

theorem owned_testOp : Owned .testOp s (effect .testOp s) := by
  simp only [effect, seqBegin_valid (q := .test) rfl]
  exact (Owned.of_reg _).ite

theorem owned_cyTop : Owned .cyTop s (cyTopOp s) := by
  unfold cyTopOp
  split_ifs
  · exact .of_reg s.seq
  · rw [seqBegin_valid rfl]
    exact .of_reg _

theorem owned_cySample : Owned .cySample s (cySampleOp s) := by
  rcases cySampleOp_cases s with ⟨-, h⟩ | ⟨-, f, rfl, t, rfl, ⟨-, h⟩ | ⟨dir, n, hcorr, h⟩⟩ <;> rw [h]
  · exact .of_reg _
  · exact .of_reg _
  · rw [beginMove_eq (isDirection_of_correction hcorr)]
    exact .of_reg _

theorem owned_cyAck : Owned .cyAck s (cyAckOp s) := by
  unfold cyAckOp
  split_ifs
  · exact .of_reg _
  · exact .of_reg _

theorem owned_osMove : Owned .osMove s (osMoveOp s) := by
  rw [osMoveOp_eq]
  exact .of_reg _

end

/-- No row changes a register it does not own. -/
theorem effect_owned (i : Instr) (s : State) : Owned i s (effect i s) := by
  cases i with
  | motor d st m => exact owned_seqBegin _
  | flow => exact owned_seqBegin .flow
  | test => exact owned_seqBegin .test
  | flowR l h => exact owned_deliver _
  | flowBadLen p => exact owned_deliver _
  | motorR p => exact owned_deliver _
  | testR p => exact owned_deliver _
  | frame t p => exact owned_deliver _
  | rxStart => exact .of_rx (by simp [OwnsReceiver]) _ _
  | rxDrop b => exact .refl _ s
  | rxBadLen b => exact .of_rx (by simp [OwnsReceiver]) _ _
  | rxLen b => exact .of_rx (by simp [OwnsReceiver]) _ _
  | rxData b => exact .of_rx (by simp [OwnsReceiver]) _ _
  | rxLast b => exact owned_rxLast b
  | setTarget v => exact .of_reg s.seq
  | start => exact owned_start
  | stop => exact (Owned.of_reg s.seq).ite
  | fullyOpen => exact (Owned.of_reg s.seq).ite
  | fullyClose => exact (Owned.of_reg s.seq).ite
  | testOp => exact owned_testOp
  | reservedOp0 => exact .refl _ s
  | reservedOp67 op => exact .refl _ s
  | writeIgnored23 idx => exact .refl _ s
  | writeIgnored47 idx => exact .refl _ s
  | hostRead idx => exact .of_reg s.seq
  | seqWrite => exact owned_seqWrite
  | seqPoll => exact owned_seqPoll
  | cyTop => exact owned_cyTop
  | cySample => exact owned_cySample
  | cyAck => exact owned_cyAck
  | cyWake => exact .of_reg s.seq
  | osMove => exact owned_osMove
  | osEnd => exact .of_reg s.seq
  | osNext => exact .of_reg _
  | testDone => exact .of_reg _

/-- Settles O50: an operation's next state is the effect of its row. -/
theorem registersChangeOnlyByTheirOwners : Obligations.RegistersChangeOnlyByTheirOwners := by
  intro i s t hexec
  obtain ⟨-, rfl⟩ := exec_eq_next_iff.mp hexec
  obtain ⟨hcfg, hsched, ⟨hpos, htarget, hflow, hstop, htime, hresult, hlink⟩, hlog, hrx⟩ := effect_owned i s
  exact ⟨hcfg, hsched, hpos, htarget, hflow, hstop, htime, hresult, hlink, hlog, hrx⟩

end Sys2Proof.Machine
end

section
/-! The host's view of the registers (R33, R72): what each index reads, and the fields of the STATUS word bit by bit. -/

namespace Sys2Proof.Machine

/-! ### Reads by index -/

/-- An index above FLOW reads as zero (R72). -/
theorem hostRegister_of_five_le {idx : BitVec 3} (h : 5 ≤ idx.toNat) (s : State) : s.hostRegister idx = .word 0 := by
  have hne : ∀ k : BitVec 3, k.toNat < 5 → idx ≠ k := fun k hk he => by rw [he] at h; omega
  simp [State.hostRegister, hne]

/-- Settles O34: indices 0 to 4 show their registers by the definition of the port, the rest by the lemma above. -/
theorem hostReadsShowTheRegisters : Obligations.HostReadsShowTheRegisters := by
  intro s
  refine ⟨rfl, rfl, rfl, rfl, rfl, fun idx h => ?_, fun _ _ => rfl, fun _ _ => rfl⟩
  rw [← hostRegister_of_five_le h s]
  rfl

/-! ### STATUS -/

/-- A flag shows at its own bit and nowhere else. -/
theorem getLsbD_flagBit (b : Bool) {i : Nat} (hi : i < 16) (j : Nat) :
    (flagBit b i).getLsbD j = (b && decide (i = j)) := by
  cases b with
  | false => simp [flagBit]
  | true =>
    rw [flagBit, if_pos rfl, BitVec.getLsbD_ofNat, Nat.testBit_two_pow, Bool.true_and]
    by_cases hij : i = j
    · simp [hij, hij ▸ hi]
    · simp [hij]

/-- Each bit of STATUS is the bit of the one field that holds it. -/
theorem getLsbD_statusWord (s : State) {j : Nat} (hj : j < 16) : s.statusWord.getLsbD j =
    (s.reg.state.code.getLsbD j || (s.reg.stopFlag && decide (3 = j)) || (s.reg.linkOk && decide (4 = j))
      || (s.reg.testDone && decide (5 = j)) || (s.reg.flowValid && decide (6 = j))
      || (decide (8 ≤ j) && s.reg.lastResult.code.getLsbD (j - 8))) := by
  simp only [State.statusWord, BitVec.getLsbD_or, BitVec.getLsbD_shiftLeft, BitVec.getLsbD_setWidth,
    getLsbD_flagBit, Nat.reduceLT]
  simp [hj, show j - 8 < 16 by omega, ← decide_not]

/-- The low three bits of STATUS are the code of the regulator's state. -/
theorem statusWord_state (s : State) : s.statusWord.setWidth 3 = s.reg.state.code := by
  refine BitVec.eq_of_getLsbD_eq fun j hj => ?_
  have h3 : ∀ k, 3 ≤ k → k ≠ j := by omega
  rw [BitVec.getLsbD_setWidth, getLsbD_statusWord s (by omega)]
  simp [hj, h3, show ¬ 8 ≤ j by omega]

/-- The upper byte of STATUS is the code of the last result alone. -/
theorem statusWord_lastResult (s : State) : s.statusWord >>> 8 = s.reg.lastResult.code.setWidth 16 := by
  refine BitVec.eq_of_getLsbD_eq fun j hj => ?_
  rw [BitVec.getLsbD_ushiftRight, BitVec.getLsbD_setWidth]
  by_cases h16 : 8 + j < 16
  · have h3 : ∀ k, k < 8 → k ≠ 8 + j := by omega
    rw [getLsbD_statusWord s h16, BitVec.getLsbD_of_ge s.reg.state.code (8 + j) (by omega)]
    simp [hj, h3]
  · rw [BitVec.getLsbD_of_ge _ (8 + j) (by omega), BitVec.getLsbD_of_ge s.reg.lastResult.code j (by omega)]
    simp

/-- Settles O35: the two codes by the bits they fill, the flags by their own bits. -/
theorem statusWordHoldsItsFields : Obligations.StatusWordHoldsItsFields := by
  intro s
  have hstate : s.statusWord.toNat % 8 = s.reg.state.code.toNat := by
    rw [← statusWord_state, BitVec.toNat_setWidth]
  have hresult : s.statusWord.toNat / 256 = s.reg.lastResult.code.toNat := by
    have h := congrArg BitVec.toNat (statusWord_lastResult s)
    rwa [BitVec.toNat_ushiftRight, Nat.shiftRight_eq_div_pow, BitVec.toNat_setWidth_of_le (by omega)] at h
  refine ⟨?_, ?_, ?_, ?_, ?_, ?_, ?_⟩
  · rw [hstate]
    cases s.reg.state <;> rfl
  · simpa using getLsbD_statusWord s (j := 3) (by decide)
  · simpa using getLsbD_statusWord s (j := 4) (by decide)
  · simpa using getLsbD_statusWord s (j := 5) (by decide)
  · simpa using getLsbD_statusWord s (j := 6) (by decide)
  · simpa using getLsbD_statusWord s (j := 7) (by decide)
  · rw [hresult]
    cases s.reg.lastResult <;> rfl

end Sys2Proof.Machine
end

section
/-! The decoder by format (D34): what each of the four kinds of code selects (R90 to R105), and that decoding undoes
encoding. -/

namespace Sys2Proof

/-! ### Operand conditions -/

theorem wellFormed_flowBadLen_iff {p : List Byte} :
    (Instr.flowBadLen p).wellFormed = true ↔ p.length ≤ 251 ∧ p.length ≠ 2 := by
  simp [Instr.wellFormed, payloadFits_iff]

theorem wellFormed_frame_iff {t : Byte} {p : List Byte} :
    (Instr.frame t p).wellFormed = true ↔
      p.length ≤ 251 ∧ t ≠ Config.tagMotor ∧ t ≠ Config.tagFlow ∧ t ≠ Config.tagTest := by
  simp [Instr.wellFormed, payloadFits_iff, and_assoc]

theorem wellFormed_rxDrop_iff {b : Byte} : (Instr.rxDrop b).wellFormed = true ↔ b ≠ Config.startByte := by
  simp [Instr.wellFormed]

theorem wellFormed_rxBadLen_iff {b : Byte} : (Instr.rxBadLen b).wellFormed = true ↔ b.toNat ≤ 3 :=
  decide_eq_true_iff.trans Nat.lt_succ_iff

theorem wellFormed_rxLen_iff {b : Byte} : (Instr.rxLen b).wellFormed = true ↔ ¬ b.toNat ≤ 3 :=
  decide_eq_true_iff.trans Nat.not_le.symm

theorem wellFormed_reservedOp67_iff {op : BitVec 3} : (Instr.reservedOp67 op).wellFormed = true ↔ 6 ≤ op.toNat :=
  decide_eq_true_iff

theorem wellFormed_writeIgnored23_iff {idx : BitVec 3} :
    (Instr.writeIgnored23 idx).wellFormed = true ↔ idx = 2 ∨ idx = 3 := by
  simp [Instr.wellFormed]

theorem wellFormed_writeIgnored47_iff {idx : BitVec 3} :
    (Instr.writeIgnored47 idx).wellFormed = true ↔ 4 ≤ idx.toNat := decide_eq_true_iff

/-! ### Frames (R93 to R101) -/

theorem classifyReply_flow {p : List Byte} (h : p.length ≠ 2) :
    classifyReply Config.tagFlow p = .flowBadLen p := by
  match p, h with
  | [], _ => rfl
  | [_], _ => rfl
  | _ :: _ :: _ :: _, _ => rfl

theorem classifyReply_other {t : Byte} {p : List Byte} (hM : t ≠ Config.tagMotor) (hF : t ≠ Config.tagFlow)
    (hT : t ≠ Config.tagTest) : classifyReply t p = .frame t p := by
  simp only [classifyReply, if_neg hM, if_neg hF, if_neg hT]

/-- What the block sends is read as a request. -/
theorem decode_frame_toDevice (c : Byte) {p : List Byte} (h : p.length ≤ 251) :
    decode (.frame .toDevice (frameBytes c p)) = classifyRequest c p := by
  simp [decode, decodeFrame, Machine.codecValidate_frameBytes c h]

/-- What the block receives is read as a reply. -/
theorem decode_frame_toBlock (c : Byte) {p : List Byte} (h : p.length ≤ 251) :
    decode (.frame .toBlock (frameBytes c p)) = .ok (classifyReply c p) := by
  simp [decode, decodeFrame, Machine.codecValidate_frameBytes c h]

theorem classifyReply_wellFormed (c : Byte) {p : List Byte} (h : p.length ≤ 251) :
    (classifyReply c p).wellFormed = true := by
  have hfits : payloadFits p = true := payloadFits_iff.mpr h
  by_cases hM : c = Config.tagMotor
  · subst hM; exact hfits
  by_cases hF : c = Config.tagFlow
  · subst hF
    by_cases h2 : p.length = 2
    · obtain ⟨l, u, rfl⟩ := List.length_eq_two.mp h2
      rfl
    · rw [classifyReply_flow h2]
      exact wellFormed_flowBadLen_iff.mpr ⟨h, h2⟩
  by_cases hT : c = Config.tagTest
  · subst hT; exact hfits
  · rw [classifyReply_other hM hF hT]
    exact wellFormed_frame_iff.mpr ⟨h, hM, hF, hT⟩

theorem classifyRequest_wellFormed {c : Byte} {p : List Byte} {i : Instr} (h : p.length ≤ 251)
    (hi : classifyRequest c p = .ok i) : i.wellFormed = true := by
  unfold classifyRequest at hi
  split_ifs at hi with hM hF hT
  · split at hi <;> cases hi
    rfl
  · split at hi <;> cases hi
    rfl
  · split at hi <;> cases hi
    rfl
  · cases hi
    exact wellFormed_frame_iff.mpr ⟨h, hM, hF, hT⟩

theorem decodeFrame_wellFormed {side : LinkSide} {bytes : List Byte} {i : Instr}
    (hi : decodeFrame side bytes = .ok i) : i.wellFormed = true := by
  unfold decodeFrame at hi
  split_ifs at hi with hvalid
  have hp : (framePayload bytes).length ≤ 251 := by
    obtain ⟨-, hmax, -⟩ := (codecValidate_iff _ _).mp hvalid
    obtain ⟨-, hlen⟩ := eq_frameBytes_of_valid hvalid
    omega
  cases side with
  | toDevice => exact classifyRequest_wellFormed hp hi
  | toBlock =>
    cases hi
    exact classifyReply_wellFormed _ hp

/-! ### Received bytes (R105) -/

theorem decode_rxByte_seeking {c : Fin 255} (l b : Byte) (h : c.val = 0) :
    decode (.rxByte c l b) = .ok (if b = Config.startByte then .rxStart else .rxDrop b) := by
  simp only [decode, rxClass, if_pos h]
  split_ifs <;> rfl

theorem decode_rxByte_lengthPending {c : Fin 255} (l b : Byte) (h : c.val = 1) :
    decode (.rxByte c l b) = .ok (if b.toNat ≤ 3 then .rxBadLen b else .rxLen b) := by
  have hmin : b.toNat < Config.minLen ↔ b.toNat ≤ 3 := Nat.lt_succ_iff
  simp only [decode, rxClass, if_neg (show ¬ c.val = 0 by omega), if_pos h, hmin]
  split_ifs <;> rfl

theorem decode_rxByte_accumulating {c : Fin 255} (l b : Byte) (h : 2 ≤ c.val) :
    decode (.rxByte c l b) = .ok (if c.val + 1 < l.toNat then .rxData b else .rxLast b) := by
  simp only [decode, rxClass, if_neg (show ¬ c.val = 0 by omega), if_neg (show ¬ c.val = 1 by omega)]
  split_ifs <;> rfl

/-- Settles O9: the receiver's state picks the test, and the byte or the count answers it. -/
theorem receivedBytesDecodeByState : Obligations.ReceivedBytesDecodeByState := by
  intro c l b
  refine ⟨decode_rxByte_seeking l b, decode_rxByte_lengthPending l b, fun hc hl => ?_, fun hc hl => ?_⟩
  · rw [decode_rxByte_accumulating l b hc, if_pos (by omega)]
  · rw [decode_rxByte_accumulating l b hc, if_neg (by omega)]

theorem decode_rxByte_wellFormed {c : Fin 255} {l b : Byte} {i : Instr} (hi : decode (.rxByte c l b) = .ok i) :
    i.wellFormed = true := by
  rcases (by omega : c.val = 0 ∨ c.val = 1 ∨ 2 ≤ c.val) with hc | hc | hc
  · rw [decode_rxByte_seeking l b hc] at hi
    split_ifs at hi with hb <;> cases hi
    · rfl
    · exact wellFormed_rxDrop_iff.mpr hb
  · rw [decode_rxByte_lengthPending l b hc] at hi
    split_ifs at hi with hb <;> cases hi
    · exact wellFormed_rxBadLen_iff.mpr hb
    · exact wellFormed_rxLen_iff.mpr hb
  · rw [decode_rxByte_accumulating l b hc] at hi
    split_ifs at hi <;> cases hi <;> rfl

/-! ### Host accesses (R33, R72, R103) -/

theorem decodeOp_of_six_le {op : BitVec 3} (h : 6 ≤ op.toNat) : decodeOp op = .reservedOp67 op := by
  have hne (k : BitVec 3) (hk : k.toNat < 6) : op ≠ k := fun he => by subst he; omega
  unfold decodeOp
  rw [if_neg (hne 1 (by decide)), if_neg (hne 2 (by decide)), if_neg (hne 3 (by decide)),
    if_neg (hne 4 (by decide)), if_neg (hne 5 (by decide)), if_neg (hne 0 (by decide))]

theorem decode_command_write (w : Half) :
    decode (.host { we := true, idx := 1, wdata := w }) = .ok (decodeOp (BitVec.ofNat 3 w.toNat)) := by
  have hop : w.extractLsb' 0 3 = BitVec.ofNat 3 w.toNat := by simp [BitVec.extractLsb']
  rw [← hop]
  rfl

/-- Settles O8: the decoder sees the low three bits of a COMMAND write alone. -/
theorem commandWritesDecodeByOp : Obligations.CommandWritesDecodeByOp := by
  refine fun w => ⟨?_, rfl⟩
  rw [decode_command_write]
  have hop : (BitVec.ofNat 3 w.toNat).toNat = w.toNat % 8 := BitVec.toNat_ofNat ..
  have hlit {k : Nat} (hk : w.toNat % 8 = k) : BitVec.ofNat 3 w.toNat = BitVec.ofNat 3 k :=
    BitVec.eq_of_toNat_eq (by rw [hop, BitVec.toNat_ofNat]; omega)
  split
  case h_7 h0 h1 h2 h3 h4 h5 =>
    simp only [imp_false] at h0 h1 h2 h3 h4 h5
    rw [decodeOp_of_six_le (by omega)]
  all_goals
    rw [hlit ‹_›]
    rfl

theorem decode_opAccess (op : BitVec 3) : decode (.host (opAccess op)) = .ok (decodeOp op) := by
  have hop : BitVec.ofNat 3 (op.setWidth 16).toNat = op := by
    rw [BitVec.toNat_setWidth_of_le (by decide), BitVec.ofNat_toNat, BitVec.setWidth_eq]
  rw [opAccess, decode_command_write, hop]

theorem decode_ignored_write {idx : BitVec 3} (w : Half) (h : 4 ≤ idx.toNat) :
    decode (.host { we := true, idx := idx, wdata := w }) = .ok (.writeIgnored47 idx) := by
  have hne (k : BitVec 3) (hk : k.toNat < 4) : idx ≠ k := fun he => by subst he; omega
  simp only [decode, decodeHost, if_true, if_neg (hne 0 (by decide)), if_neg (hne 1 (by decide)),
    if_neg (not_or.mpr ⟨hne 2 (by decide), hne 3 (by decide)⟩)]

theorem decodeOp_wellFormed (op : BitVec 3) : (decodeOp op).wellFormed = true := by
  unfold decodeOp
  split_ifs with h1 h2 h3 h4 h5 h0
  case neg => exact wellFormed_reservedOp67_iff.mpr (by bv_omega)
  all_goals rfl

theorem decodeHost_wellFormed (a : HostAccess) : (decodeHost a).wellFormed = true := by
  unfold decodeHost
  split_ifs with hwe h0 h1 h23
  · rfl
  · exact decodeOp_wellFormed _
  · exact wellFormed_writeIgnored23_iff.mpr h23
  · exact wellFormed_writeIgnored47_iff.mpr (by bv_omega)
  · rfl

/-! ### Steps of the block (D34) -/

/-- No row of the block's own steps has an operand. -/
theorem decodeStep_wellFormed {r : BitVec 3} {p q : BitVec 2} {m : Bool} {i : Instr}
    (hi : decodeStep r p q m = .ok i) : i.wellFormed = true := by
  unfold decodeStep at hi
  split_ifs at hi <;> cases hi <;> rfl

/-! ### The decoder against the encoder -/

/-- Settles O6, format by format. -/
theorem decodedIsWellFormed : Obligations.DecodedIsWellFormed := by
  intro c i hi
  cases c with
  | frame side bytes => exact decodeFrame_wellFormed hi
  | rxByte count len b => exact decode_rxByte_wellFormed hi
  | host a =>
    cases hi
    exact decodeHost_wellFormed a
  | step r p q m => exact decodeStep_wellFormed hi

/-- Settles O5: each row's code meets the test that selects the row; the rows not named have a code without a
condition on their operands. -/
theorem decodeEncodeRoundTrip : Obligations.DecodeEncodeRoundTrip := by
  intro i hi
  cases i with
  | motor d s m => exact decode_frame_toDevice _ (by simp)
  | flow => exact decode_frame_toDevice _ (by simp)
  | test => exact decode_frame_toDevice _ (by simp)
  | flowR l h => exact decode_frame_toBlock _ (by simp)
  | flowBadLen p =>
    obtain ⟨hp, h2⟩ := wellFormed_flowBadLen_iff.mp hi
    exact (decode_frame_toBlock _ hp).trans (congrArg _ (classifyReply_flow h2))
  | motorR p => exact decode_frame_toBlock _ (payloadFits_iff.mp hi)
  | testR p => exact decode_frame_toBlock _ (payloadFits_iff.mp hi)
  | frame t p =>
    obtain ⟨hp, hM, hF, hT⟩ := wellFormed_frame_iff.mp hi
    exact (decode_frame_toBlock _ hp).trans (congrArg _ (classifyReply_other hM hF hT))
  | rxDrop b =>
    exact (decode_rxByte_seeking _ b rfl).trans (congrArg _ (if_neg (wellFormed_rxDrop_iff.mp hi)))
  | rxBadLen b =>
    exact (decode_rxByte_lengthPending _ b rfl).trans (congrArg _ (if_pos (wellFormed_rxBadLen_iff.mp hi)))
  | rxLen b =>
    exact (decode_rxByte_lengthPending _ b rfl).trans (congrArg _ (if_neg (wellFormed_rxLen_iff.mp hi)))
  | reservedOp67 op =>
    exact (decode_opAccess op).trans (congrArg _ (decodeOp_of_six_le (wellFormed_reservedOp67_iff.mp hi)))
  | writeIgnored23 idx => rcases wellFormed_writeIgnored23_iff.mp hi with rfl | rfl <;> rfl
  | writeIgnored47 idx => exact decode_ignored_write 0 (wellFormed_writeIgnored47_iff.mp hi)
  | _ => rfl

/-- Settles O7: all words but one are what `encode` gives their operations; the START write has an ignored bit set. -/
theorem writtenOutWordsDecode : Obligations.WrittenOutWordsDecode :=
  ⟨decodeEncodeRoundTrip (.motor 0x46 200 10) rfl, decodeEncodeRoundTrip (.flowR 0x34 0x12) rfl,
    decodeEncodeRoundTrip (.frame 0x58 [0xAA, 0x01]) rfl, decode_command_write 0x0009,
    decodeEncodeRoundTrip (.rxBadLen 0x03) rfl, decodeEncodeRoundTrip .testDone rfl⟩

end Sys2Proof
end

section
/-! The codec (R120 to R124): the layout of an encoded frame, `validate` as a zero XOR, and what bit flips do to it. -/

namespace Sys2Proof

/-! ### XOR8 over changed lists -/

/-- A change of one byte changes XOR8 by the same bits. -/
theorem xor8_set {l : List Byte} {i : Nat} {b : Byte} (d : Byte) (h : l[i]? = some b) :
    xor8 (l.set i (b ^^^ d)) = xor8 l ^^^ d := by
  induction l generalizing i with
  | nil => simp at h
  | cons a l ih =>
    cases i with
    | zero =>
      obtain rfl : a = b := by simpa using h
      simp only [List.set_cons_zero, xor8_cons]
      ac_rfl
    | succ i =>
      have hi : l[i]? = some b := by simpa using h
      simp only [List.set_cons_succ, xor8_cons, ih hi, BitVec.xor_assoc]

/-- XOR8 of a bytewise difference is the difference of the two XOR8s. -/
theorem xor8_zipWith_xor {f g : List Byte} (h : g.length = f.length) :
    xor8 (List.zipWith (· ^^^ ·) f g) = xor8 f ^^^ xor8 g := by
  induction f generalizing g with
  | nil =>
    obtain rfl := List.eq_nil_of_length_eq_zero h
    simp
  | cons a f ih =>
    cases g with
    | nil => simp at h
    | cons b g =>
      have hl : g.length = f.length := by simpa using h
      simp only [List.zipWith_cons_cons, xor8_cons, ih hl]
      ac_rfl

/-- A byte is the XOR of the bytes before it exactly where it cancels them (R120). -/
theorem xor8_take_succ_eq_zero_iff {l : List Byte} {n : Nat} (h : n < l.length) :
    xor8 (l.take (n + 1)) = 0 ↔ l[n]? = some (xor8 (l.take n)) := by
  rw [List.take_add_one, List.getElem?_eq_getElem h, xor8_append]
  simp [eq_comm (a := l[n])]

/-! ### `validate` -/

/-- The conditions of `validate` with the checksum condition as a zero XOR (R122). -/
theorem codecValidate_iff_xor8_eq_zero {buf : List Byte} {n : Nat} (h : n ≤ buf.length) :
    codecValidate buf n = true ↔
      4 ≤ n ∧ n ≤ 255 ∧ buf[0]? = some 0xAA ∧ buf[1]?.map BitVec.toNat = some n ∧ xor8 (buf.take n) = 0 := by
  rw [codecValidate_iff]
  refine and_congr_right fun h4 => ?_
  obtain ⟨m, rfl⟩ : ∃ m, n = m + 1 := ⟨n - 1, by omega⟩
  rw [xor8_take_succ_eq_zero_iff h, Nat.add_sub_cancel]

/-- A whole buffer that validates has XOR8 zero. -/
theorem xor8_eq_zero_of_valid {f : List Byte} (h : codecValidate f f.length = true) : xor8 f = 0 := by
  obtain ⟨-, -, -, -, hx⟩ := (codecValidate_iff_xor8_eq_zero le_rfl).mp h
  rwa [List.take_length] at hx

/-- Validity of a whole buffer depends on its length, its two header bytes and its XOR8 alone. -/
theorem codecValidate_congr {f g : List Byte} (hf : codecValidate f f.length = true) (hlen : g.length = f.length)
    (h0 : g[0]? = f[0]?) (h1 : g[1]? = f[1]?) (hx : xor8 g = 0) : codecValidate g f.length = true := by
  obtain ⟨h4, h255, hstart, hlength, -⟩ := (codecValidate_iff_xor8_eq_zero le_rfl).mp hf
  refine (codecValidate_iff_xor8_eq_zero hlen.ge).mpr ⟨h4, h255, h0.trans hstart, by rw [h1, hlength], ?_⟩
  rwa [← hlen, List.take_length]

/-- A nonzero change of one byte of a valid buffer is detected, wherever the byte stands. -/
theorem codecValidate_set_xor {f : List Byte} {i : Nat} {b d : Byte} (hf : codecValidate f f.length = true)
    (hb : f[i]? = some b) (hd : d ≠ 0) : codecValidate (f.set i (b ^^^ d)) f.length = false := by
  refine Bool.eq_false_iff.mpr fun hv => hd ?_
  have hlen : (f.set i (b ^^^ d)).length = f.length := List.length_set
  have hx : xor8 (f.set i (b ^^^ d)) = 0 := xor8_eq_zero_of_valid (by rwa [hlen])
  simpa [xor8_set d hb, xor8_eq_zero_of_valid hf] using hx

/-- The mask of one bit of a byte is not zero. -/
theorem twoPow_ne_zero : ∀ k : Fin 8, BitVec.twoPow 8 k.val ≠ 0 := by decide

/-! ### Encoded frames -/

/-- The bytes before the last of an encoded frame are its body. -/
@[simp] theorem frameBytes_dropLast (c : Byte) (p : List Byte) : (frameBytes c p).dropLast = frameBody c p :=
  List.dropLast_concat

/-- The last byte of an encoded frame is the XOR of its body. -/
@[simp] theorem frameBytes_getLast? (c : Byte) (p : List Byte) :
    (frameBytes c p).getLast? = some (xor8 (frameBody c p)) :=
  List.getLast?_concat

/-- The payload of an encoded frame stands behind its three header bytes. -/
theorem frameBytes_drop_take (c : Byte) (p : List Byte) : ((frameBytes c p).drop 3).take p.length = p :=
  List.take_left

/-- Settles O1: byte by byte over the frame's body and its checksum. -/
theorem encodeLaysOutTheFrame : Obligations.EncodeLaysOutTheFrame := by
  intro c p
  refine ⟨fun h => ⟨frameBytes c p, codecEncode_ok h, ?_, rfl, ?_, rfl, frameBytes_drop_take c p, ?_⟩,
    codecEncode_error⟩
  · rw [frameBytes_length, Nat.add_comm]
  · rw [(codecValidate_frameBytes_take h).1, Nat.add_comm]
  · rw [frameBytes_getLast?, frameBytes_dropLast]

/-- Settles O2: the encoded bytes are a frame with its own length. -/
theorem encodedFrameValidates : Obligations.EncodedFrameValidates := by
  intro c p h
  refine ⟨frameBytes c p, codecEncode_ok h, ?_⟩
  rw [Nat.add_comm]
  exact Machine.codecValidate_frameBytes c h

/-- Settles O3: the last byte of the range against the XOR of the bytes before it. -/
theorem validateAsZeroXor : Obligations.ValidateAsZeroXor :=
  fun _ _ h => codecValidate_iff_xor8_eq_zero h

/-- Settles O4: an encoded frame has XOR8 zero; one inverted bit makes it nonzero, flips that cancel leave it zero. -/
theorem singleFlipDetectedEvenFlipsNot : Obligations.SingleFlipDetectedEvenFlipsNot := by
  intro c p f hp hf
  obtain rfl : frameBytes c p = f := Except.ok.inj ((codecEncode_ok hp).symm.trans hf)
  have hvalid : codecValidate (frameBytes c p) (frameBytes c p).length = true := by
    rw [frameBytes_length]
    exact Machine.codecValidate_frameBytes c hp
  refine ⟨fun i b k hb => ?_, fun g hlen h0 h1 hxor => ?_⟩
  · exact codecValidate_set_xor hvalid hb (twoPow_ne_zero k)
  · have hg : xor8 g = 0 := by simpa [xor8_zipWith_xor hlen, xor8_eq_zero_of_valid hvalid] using hxor
    exact codecValidate_congr hvalid hlen h0 h1 hg

end Sys2Proof
end

section
/-! The receiver (R140 to R151): what each class of received byte does in a wait, a whole capture as one unit with the
frame it emits, and a frame between bytes that begin none. -/

namespace Sys2Proof.Machine

/-! ### Which byte is of which class (R105, R140) -/

theorem rxClass_of_seeking {c : Fin 255} (len b : Byte) (h : c.val = 0) :
    rxClass c len b = if b = 0xAA then .start else .drop := if_pos h

theorem rxClass_of_lengthPending {c : Fin 255} (len b : Byte) (h : c.val = 1) :
    rxClass c len b = if b.toNat < 4 then .badLen else .len := by
  rw [rxClass, if_neg (by omega), if_pos h, Config.minLen]

theorem rxClass_of_accumulating {c : Fin 255} (len b : Byte) (h : 2 ≤ c.val) :
    rxClass c len b = if c.val + 1 < len.toNat then .data else .last := by
  rw [rxClass, if_neg (by omega), if_neg (by omega)]

theorem rxEnabled_iff {c : RxClass} {b : Byte} {s : State} :
    rxEnabled c b s = true ↔ s.seq.state = .wait ∧ rxClass s.rx.count s.rx.len b = c := by
  simp only [rxEnabled, Bool.and_eq_true, beq_iff_eq]

theorem RxRegs.mode_eq_seeking_iff {r : RxRegs} : r.mode = .seeking ↔ r.count.val = 0 := by
  unfold RxRegs.mode
  split_ifs with h0 h1 <;> simp [h0]

/-! ### Bytes that complete no capture (R141 to R145) -/

/-- Settles O17: the start byte is stored by a write at index 0; a drop has no effect. -/
theorem seekingStoresOnlyAStartByte : Obligations.SeekingStoresOnlyAStartByte := by
  intro s hwait h0 hbuf
  have hclass := fun b => rxClass_of_seeking s.rx.len b h0
  refine ⟨⟨rxStartOp s, ?_, rfl, rfl, rfl, Memory.read_write hbuf.1 0 0xAA⟩, fun b hb => ?_⟩
  · exact exec_of_enabled (i := .rxStart) (rxEnabled_iff.mpr ⟨hwait, (hclass _).trans (if_pos rfl)⟩)
  · exact exec_of_enabled (i := .rxDrop b) (rxEnabled_iff.mpr ⟨hwait, (hclass b).trans (if_neg hb)⟩)

/-- Settles O18: the length byte is stored by a write at index 1, whichever way it is classed. -/
theorem lengthByteIsRecordedOrDiscarded : Obligations.LengthByteIsRecordedOrDiscarded := by
  intro s b hwait h1 hbuf
  have hclass := rxClass_of_lengthPending s.rx.len b h1
  have hread := Memory.read_write hbuf.1 1 b
  refine ⟨fun hb => ⟨rxBadLenOp b s, ?_, rfl, rfl, rfl, hread⟩, fun hb => ⟨rxLenOp b s, ?_, rfl, rfl, rfl, hread⟩⟩
  · exact exec_of_enabled (i := .rxBadLen b) (rxEnabled_iff.mpr ⟨hwait, hclass.trans (if_pos hb)⟩)
  · exact exec_of_enabled (i := .rxLen b) (rxEnabled_iff.mpr ⟨hwait, hclass.trans (if_neg (by omega))⟩)

/-- Settles O19: the byte is stored by a write at `rx_count`, which stays inside its range as `rx_len` is a byte. -/
theorem dataByteIsAppended : Obligations.DataByteIsAppended := by
  intro s b hwait h2 hlt hbuf
  have hclass := (rxClass_of_accumulating s.rx.len b h2).trans (if_pos hlt)
  have hmax := s.rx.len.isLt
  refine ⟨rxDataOp b s, ?_, rfl, rxNext_val (by omega), rfl, Memory.read_write hbuf.1 s.rx.count.val b⟩
  exact exec_of_enabled (i := .rxData b) (rxEnabled_iff.mpr ⟨hwait, hclass⟩)

/-! ### The last byte of a capture (R146, R147) -/

/-- What a complete capture emits (R146): its frame (R67), if it validates. -/
def emitted (bytes : List Byte) : Option Frame :=
  if codecValidate bytes bytes.length then some ⟨frameCommand bytes, framePayload bytes⟩ else none

/-- RX_LAST emits what the bytes it completes are (R146). -/
theorem rxLastOp_emits {s : State} (b : Byte) (hbuf : s.rx.buf.wf) (hlen : s.rx.count.val + 1 = s.rx.len.toNat) :
    (rxLastOp b s).2 = emitted (s.rx.buf.readRange 0 s.rx.count.val ++ [b]) := by
  have hrange := Memory.readRange_write_end hbuf s.rx.count.val b
  simp only [rxLastOp, emitted, State.memWrite_buf, ← hrange, ← hlen, Memory.readRange_length]
  split_ifs with hvalid
  · have hframe := (eq_frameBytes_of_valid (by rwa [Memory.readRange_length])).1
    obtain ⟨hcommand, hpayload⟩ := Memory.frame_of_readRange hframe
    simp only [← hcommand, ← hpayload]
  · rfl

/-- The row of a received frame hands it to the wait, whatever its tag (R147, D34). -/
theorem exec_classifyReply (c : Byte) (p : List Byte) (s : State) :
    exec (classifyReply c p) s = deliverInWait ⟨c, p⟩ s := by
  by_cases hM : c = Config.tagMotor
  · subst hM; rfl
  by_cases hF : c = Config.tagFlow
  · subst hF
    by_cases h2 : p.length = 2
    · obtain ⟨l, h, rfl⟩ := List.length_eq_two.mp h2
      rfl
    · rw [classifyReply_flow h2]
      rfl
  by_cases hT : c = Config.tagTest
  · subst hT; rfl
  · rw [classifyReply_other hM hF hT]
    rfl

/-- In a wait, a valid capture is decoded to a row whose effect is the hand-over of what the capture emits. -/
theorem exec_decode_of_valid {bytes : List Byte} (hvalid : codecValidate bytes bytes.length = true) {s : State}
    (hwait : s.seq.state = .wait) :
    ∃ i, decode (.frame .toBlock bytes) = .ok i ∧ exec i s = .next (handOver (s, emitted bytes)) := by
  refine ⟨classifyReply (frameCommand bytes) (framePayload bytes), by simp [decode, decodeFrame, hvalid], ?_⟩
  rw [exec_classifyReply, deliverInWait, emitted, if_pos hvalid, hwait]
  rfl

/-- Settles O20: the step is the hand-over, on the emptied receiver, of what the captured bytes emit. -/
theorem lastByteEmitsAValidFrame : Obligations.LastByteEmitsAValidFrame := by
  intro s b hwait h2 hlen hbuf
  have hclass := (rxClass_of_accumulating s.rx.len b h2).trans (if_neg (by omega))
  have hexec := exec_of_enabled (i := .rxLast b) (rxEnabled_iff.mpr ⟨hwait, hclass⟩)
  have hemits := rxLastOp_emits b hbuf hlen
  have hlength : (s.rx.buf.readRange 0 s.rx.count.val ++ [b]).length = s.rx.len.toNat := by simp [hlen]
  obtain ⟨q, hq⟩ := handOver_frame (rxLastOp b s)
  rw [← hlength]
  refine ⟨handOver (rxLastOp b s), ⟨hexec, ?_⟩, fun hvalid => ?_, fun hinvalid => ?_⟩
  · rw [hq, rxLastOp_state]
    exact ⟨rfl, rfl, rfl, Memory.read_write hbuf.1 s.rx.count.val b⟩
  · have hempty : { s with rx := (handOver (rxLastOp b s)).rx } = (rxLastOp b s).1 := by rw [hq, rxLastOp_state]
    have hwait' : (rxLastOp b s).1.seq.state = .wait := by rwa [rxLastOp_state]
    rw [hempty]
    simpa only [← hemits] using exec_decode_of_valid hvalid hwait'
  · have hnone : rxLastOp b s = ((rxLastOp b s).1, none) :=
      Prod.ext rfl (hemits.trans (if_neg (Bool.eq_false_iff.mp hinvalid)))
    rw [hnone, rxLastOp_state]
    rfl

/-! ### A whole capture (R141 to R148) -/

/-- `validate` of a whole buffer compares its last byte with the XOR of the others (R122). -/
theorem codecValidate_length_iff (bytes : List Byte) : codecValidate bytes bytes.length = true ↔
    4 ≤ bytes.length ∧ bytes.length ≤ 255 ∧ bytes[0]? = some 0xAA ∧ bytes[1]?.map BitVec.toNat = some bytes.length
      ∧ bytes.getLast? = some (xor8 bytes.dropLast) := by
  rw [codecValidate_iff, List.getLast?_eq_getElem?, List.dropLast_eq_take]

/-- Behind a right header only the checksum decides what a capture emits. -/
theorem emitted_of_header {len : Byte} {rest : List Byte} (h4 : 4 ≤ len.toNat) (hlen : rest.length + 2 = len.toNat) :
    emitted (0xAA :: len :: rest) =
      if rest.getLast? = some (xor8 (0xAA :: len :: rest.dropLast)) then
        some { command := rest.getD 0 0, payload := (rest.drop 1).dropLast }
      else none := by
  have hmax := len.isLt
  match rest, hlen with
  | c :: p, hlen =>
    have hvalid : codecValidate (0xAA :: len :: c :: p) (0xAA :: len :: c :: p).length = true ↔
        (c :: p).getLast? = some (xor8 (0xAA :: len :: (c :: p).dropLast)) := by
      have hlength : (0xAA :: len :: c :: p).length = len.toNat := hlen
      rw [codecValidate_length_iff, hlength]
      exact ⟨fun ⟨_, _, _, _, hsum⟩ => hsum, fun hsum => ⟨h4, by omega, rfl, rfl, hsum⟩⟩
    have hpayload : framePayload (0xAA :: len :: c :: p) = p.dropLast := by
      simp [framePayload, List.dropLast_eq_take]
    simp only [emitted, hvalid, hpayload]
    rfl
  | [], hlen => exact absurd hlen (by simp; omega)

/-- A capture before its last byte: everything from the start byte on is in the accumulator, nothing is emitted. -/
theorem rxFeed_partial_capture {s : State} {len : Byte} (data : List Byte) (h0 : s.rx.count.val = 0)
    (hbuf : s.rx.buf.wf) (h4 : 4 ≤ len.toNat) (hlen : data.length + 2 < len.toNat) :
    ∃ r, rxFeed (0xAA :: len :: data) s = ({ s with rx := r }, []) ∧ r.count.val = data.length + 2 ∧ r.len = len
      ∧ r.buf.wf ∧ r.buf.readRange 0 r.count.val = 0xAA :: len :: data := by
  obtain ⟨r, hheader, hcount, hrlen, hwf, hrange⟩ := rxFeed_header h0 hbuf h4
  obtain ⟨r', hdata, hcount', hrlen', hwf', hrange'⟩ :=
    rxFeed_data data (s := { s with rx := r }) hcount.ge hwf (by simp only [hcount, hrlen]; omega)
  have hfeed := rxFeed_append [Config.startByte, len] data s
  have hend : r'.count.val = data.length + 2 := by rw [hcount', hcount, Nat.add_comm]
  refine ⟨r', ?_, hend, hrlen'.trans hrlen, hwf', ?_⟩
  · rw [hheader, hdata] at hfeed
    exact hfeed
  · rw [hcount', hrange', hcount, hrange]
    rfl

/-- A whole capture, whatever its bytes (R148): the receiver is back in Seeking, and the capture is emitted if it
validates. -/
theorem rxFeed_capture {s : State} {len : Byte} {rest : List Byte} (h0 : s.rx.count.val = 0) (hbuf : s.rx.buf.wf)
    (h4 : 4 ≤ len.toNat) (hlen : rest.length + 2 = len.toNat) :
    (rxFeed (0xAA :: len :: rest) s).1.rx.count.val = 0
      ∧ (rxFeed (0xAA :: len :: rest) s).2 = (emitted (0xAA :: len :: rest)).toList := by
  rcases List.eq_nil_or_concat rest with rfl | ⟨data, last, rfl⟩
  · exact absurd hlen (by simp; omega)
  simp only [List.concat_eq_append, List.length_append, List.length_singleton] at hlen ⊢
  obtain ⟨r, hstored, hcount, hrlen, hwf, hrange⟩ := rxFeed_partial_capture data h0 hbuf h4 (by omega)
  have hend : r.count.val + 1 = r.len.toNat := by rw [hcount, hrlen]; omega
  have hclass := (rxClass_of_accumulating r.len last (by omega)).trans (if_neg hend.not_lt)
  have hlast : rxByte last { s with rx := r } = rxLastOp last { s with rx := r } := by simp only [rxByte, hclass]
  have hfeed : rxFeed (0xAA :: len :: (data ++ [last])) s = ((rxLastOp last { s with rx := r }).1,
      (rxLastOp last { s with rx := r }).2.toList) := by
    have happend := rxFeed_append (0xAA :: len :: data) [last] s
    rw [hstored] at happend
    simpa [rxFeed, hlast] using happend
  rw [hfeed]
  constructor
  · rw [rxLastOp_state]; rfl
  · rw [rxLastOp_emits last hwf hend]
    simp only [hrange]
    rfl

/-- Settles O21: short of the declared length `rx_count` is the number of bytes taken, and the last byte empties it. -/
theorem captureTakesItsDeclaredLength : Obligations.CaptureTakesItsDeclaredLength := by
  intro s len rest h0 hbuf h4 hlen
  obtain ⟨hcount, hframes⟩ := rxFeed_capture h0 hbuf h4 hlen
  refine ⟨RxRegs.mode_eq_seeking_iff.mpr hcount, fun k hpos hk => ?_, ?_⟩
  · rw [Ne, RxRegs.mode_eq_seeking_iff]
    match k, hpos with
    | 1, _ => simp [rxFeed, rxByte, rxClass_of_seeking _ _ h0, rxStartOp]
    | k + 2, _ =>
      have htake : (rest.take k).length + 2 < len.toNat := by rw [List.length_take]; omega
      obtain ⟨r, hstored, hstoredCount, -⟩ := rxFeed_partial_capture (rest.take k) h0 hbuf h4 htake
      simp only [List.take_succ_cons, hstored]
      omega
  · rw [hframes, emitted_of_header h4 hlen]
    split_ifs <;> rfl

/-! ### A frame in a stream (R151) -/

/-- An encoded frame is one capture, which validates. -/
theorem rxFeed_frameBytes {s : State} (c : Byte) {p : List Byte} (h : p.length ≤ 251) (h0 : s.rx.count.val = 0)
    (hbuf : s.rx.buf.wf) :
    (rxFeed (frameBytes c p) s).1.rx.count.val = 0 ∧ (rxFeed (frameBytes c p) s).2 = [⟨c, p⟩] := by
  have hemitted : emitted (frameBytes c p) = some ⟨c, p⟩ := by simp [emitted, codecValidate_frameBytes c h]
  have hlen := frameLength_toNat h
  obtain ⟨hcount, hframes⟩ := rxFeed_capture (rest := c :: p ++ [xor8 (frameBody c p)]) h0 hbuf
    (by omega : 4 ≤ (BitVec.ofNat 8 (4 + p.length)).toNat) (by simp [hlen]; omega)
  exact ⟨hcount, hframes.trans (congrArg Option.toList hemitted)⟩

/-- Settles O22: the bytes around the frame meet the receiver in Seeking, where they are dropped. -/
theorem oneFrameAmidGarbage : Obligations.OneFrameAmidGarbage := by
  intro s before after f c p h0 hbuf hencode hbefore hafter
  have hp : p.length ≤ 251 := by
    by_contra hlong
    rw [codecEncode_error (by omega)] at hencode
    cases hencode
  obtain rfl : frameBytes c p = f := Except.ok.inj ((codecEncode_ok hp).symm.trans hencode)
  obtain ⟨hcount, hframes⟩ := rxFeed_frameBytes c hp h0 hbuf
  rw [rxFeed_append, rxFeed_append, rxFeed_garbage h0 hbefore, rxFeed_garbage hcount hafter, hframes]
  exact ⟨rfl, RxRegs.mode_eq_seeking_iff.mpr hcount⟩

end Sys2Proof.Machine
end

section
/-! The command layer (R170 to R180): SEQ_BEGIN with the bytes of its requests, SEQ_WRITE, SEQ_POLL, which received
frame ends which wait, and the bounded end of every transaction. -/

namespace Sys2Proof.Machine

/-! ### SEQ_BEGIN (R171) -/

theorem isDirection_iff {b : Byte} : isDirection b = true ↔ b = 0x46 ∨ b = 0x42 := by
  simp only [isDirection, Bool.or_eq_true, beq_iff_eq, Config.dirFwd, Config.dirBwd]

/-- The Motor request written out: its checksum is `AA ^ 07 ^ 4D = E0` and the operands (R93). -/
theorem frameBytes_motor (d n m : Byte) :
    frameBytes Config.tagMotor [d, n, m] = [0xAA, 0x07, 0x4D, d, n, m, 0xE0 ^^^ d ^^^ n ^^^ m] := by
  have hsum : xor8 (frameBody Config.tagMotor [d, n, m]) = 0xE0 ^^^ d ^^^ n ^^^ m := by
    simp [frameBody, Config.startByte, Config.tagMotor, ← BitVec.xor_assoc]
  rw [frameBytes, hsum]
  rfl

/-- Settles O15: the direction byte decides which way SEQ_BEGIN goes, and a payload's frame is written out. -/
theorem requestsBeginTheirTransaction : Obligations.RequestsBeginTheirTransaction := by
  intro s hfree
  have hen := beq_iff_eq.mpr hfree
  refine ⟨fun d n m hd => ?_, fun d n m hF hB => ?_, ?_, ?_⟩
  · rw [← frameBytes_motor]
    exact exec_eq_next_iff.mpr ⟨hen, seqBegin_valid (q := .motor d n m) (isDirection_iff.mpr hd) s⟩
  · have hinvalid : (Request.motor d n m).valid = false :=
      Bool.eq_false_iff.mpr fun hd => (isDirection_iff.mp hd).elim hF hB
    exact exec_eq_next_iff.mpr ⟨hen, seqBegin_invalid hinvalid s⟩
  · exact exec_eq_next_iff.mpr ⟨hen, seqBegin_valid (q := .flow) rfl s⟩
  · exact exec_eq_next_iff.mpr ⟨hen, seqBegin_valid (q := .test) rfl s⟩

/-! ### SEQ_WRITE (R172) -/

/-- Whatever its answer, SEQ_WRITE leaves the environment as its one write of the frame does. -/
theorem seqWriteOp_io (s : State) : (seqWriteOp s).io = (s.transportWrite s.seq.frame).2.io := by
  rcases seqWriteOp_cases s with ⟨ha, e⟩ | ⟨ha, e⟩ <;> rw [e, State.transportWrite_eq, ha]

/-- Settles O23: the two answers are the two cases of SEQ_WRITE, and both streams are read off its one write. -/
theorem seqWriteSendsTheFrameAndWaits : Obligations.SeqWriteSendsTheFrameAndWaits := by
  intro s hwrite
  have hexec : exec .seqWrite s = .next (seqWriteOp s) := exec_of_enabled (beq_iff_eq.mpr hwrite)
  refine ⟨fun herror => ?_, fun hok => ?_, seqWriteOp s, hexec, ?_, ?_⟩
  · rcases seqWriteOp_cases s with ⟨ha, -⟩ | ⟨-, e⟩
    · cases herror.symm.trans ha
    · rw [hexec, e]
  · rcases seqWriteOp_cases s with ⟨-, e⟩ | ⟨ha, -⟩
    · rw [hexec, e]
    · cases hok.symm.trans ha
  · rw [seqWriteOp_io, State.transportWrite_txStream]
  · rw [seqWriteOp_io, State.transportWrite_txAccepted]

/-! ### SEQ_POLL (R173) -/

/-- In a wait, the row a byte is decoded to runs the receiver's step with the hand-over of what it emits (R140, R147). -/
theorem exec_rxClass_instr {s : State} (hwait : s.seq.state = .wait) (b : Byte) :
    exec ((rxClass s.rx.count s.rx.len b).instr b) s = .next (handOver (rxByte b s)) := by
  have hen {c : RxClass} (hc : rxClass s.rx.count s.rx.len b = c) : rxEnabled c b s = true :=
    rxEnabled_iff.mpr ⟨hwait, hc⟩
  rcases rxClass_cases s.rx.count s.rx.len b with
    ⟨hc, -, rfl⟩ | ⟨hc, -⟩ | ⟨hc, -⟩ | ⟨hc, -⟩ | ⟨hc, -⟩ | ⟨hc, -⟩ <;> simp only [hc, RxClass.instr, rxByte]
  · exact exec_of_enabled (i := .rxStart) (hen hc)
  · exact exec_of_enabled (i := .rxDrop b) (hen hc)
  · exact exec_of_enabled (i := .rxBadLen b) (hen hc)
  · exact exec_of_enabled (i := .rxLen b) (hen hc)
  · exact exec_of_enabled (i := .rxData b) (hen hc)
  · exact exec_of_enabled (i := .rxLast b) (hen hc)

/-- Settles O24: the four cases of SEQ_POLL; the counted read leaves the receiver as it was, so a byte runs the row it
is decoded to. -/
theorem seqPollSpendsOneReadAttempt : Obligations.SeqPollSpendsOneReadAttempt := by
  intro s hwait
  have hexec : exec .seqPoll s = .next (seqPollOp s) := exec_of_enabled (beq_iff_eq.mpr hwait)
  rw [hexec]
  rcases seqPollOp_cases s with ⟨hspent, e⟩ | ⟨hlt, ha, e⟩ | ⟨hlt, ha, e⟩ | ⟨hlt, b, ha, e⟩ <;> rw [e]
  · exact ⟨fun _ => rfl, fun hlt => absurd hspent (Nat.not_le.mpr hlt)⟩
  all_goals
    refine ⟨fun hspent => absurd hspent (Nat.not_le.mpr hlt), fun _ => ⟨afterRead s, rfl, ?_⟩⟩
    rw [ha]
  · exact ⟨fun _ => rfl, nofun, nofun⟩
  · exact ⟨nofun, fun _ => rfl, nofun⟩
  · refine ⟨nofun, nofun, fun b' hb => ?_⟩
    cases hb
    exact ⟨_, _, rfl, exec_rxClass_instr (s := afterRead s) hwait b, rfl⟩

/-! ### Replies (R174) -/

/-- A reply carries the tag of its wait, and a Flow reply two bytes. -/
theorem Kind.matchesReply_iff {k : Kind} {f : Frame} :
    k.matchesReply f = true ↔ f.command = k.tag ∧ (k = .flow → f.payload.length = 2) := by
  cases k <;> simp [Kind.matchesReply, Kind.tag]

theorem Kind.tag_inj {a b : Kind} : a.tag = b.tag ↔ a = b := by
  cases a <;> cases b <;> decide

theorem deliver_of_matches {f : Frame} {s : State} (h : s.seq.kind.matchesReply f = true) :
    deliver f s = { s with seq := { s.seq with
      value := if s.seq.kind = .flow then pulseCount (f.payload.getD 0 0) (f.payload.getD 1 0) else s.seq.value
      result := .ok, state := .done } } := by
  rcases deliver_cases f s with ⟨-, e⟩ | ⟨hno, -⟩
  · exact e
  · cases h.symm.trans hno

theorem deliver_of_not_matches {f : Frame} {s : State} (h : ¬ s.seq.kind.matchesReply f = true) :
    deliver f s = s := by
  rcases deliver_cases f s with ⟨hyes, -⟩ | ⟨-, e⟩
  · exact absurd hyes h
  · exact e

/-- A frame that carries the tag of a kind and is a reply of it ends a wait of that kind alone. -/
theorem deliver_reply {k : Kind} {p : List Byte} (hp : k = .flow → p.length = 2) (s : State) :
    deliver ⟨k.tag, p⟩ s = if s.seq.kind = k then { s with seq := { s.seq with
      value := if k = .flow then pulseCount (p.getD 0 0) (p.getD 1 0) else s.seq.value
      result := .ok, state := .done } } else s := by
  by_cases hk : s.seq.kind = k
  · subst hk
    rw [if_pos rfl]
    exact deliver_of_matches (f := ⟨_, p⟩) (Kind.matchesReply_iff.mpr ⟨rfl, hp⟩)
  · rw [if_neg hk]
    refine deliver_of_not_matches fun hmatch => hk ?_
    have htag : k.tag = s.seq.kind.tag := (Kind.matchesReply_iff.mp hmatch).1
    exact (Kind.tag_inj.mp htag).symm

/-- The two bytes of a Flow reply, low byte first (R64). -/
theorem pulseCount_eq_ofNat (l h : Byte) : pulseCount l h = BitVec.ofNat 16 (l.toNat + 256 * h.toNat) := by
  apply BitVec.eq_of_toNat_eq
  simp [pulseCount]

/-- Settles O16: a reply ends a wait of its own kind; a Flow tag without two bytes and a foreign tag match none. -/
theorem repliesMatchByTag : Obligations.RepliesMatchByTag := by
  intro s hwait
  have hen := beq_iff_eq.mpr hwait
  refine ⟨fun l h => exec_eq_next_iff.mpr ⟨hen, ?_⟩, fun p hp => exec_eq_next_iff.mpr ⟨hen, ?_⟩,
    fun p => exec_eq_next_iff.mpr ⟨hen, ?_⟩, fun p => exec_eq_next_iff.mpr ⟨hen, ?_⟩,
    fun t p hM hF hT => exec_eq_next_iff.mpr ⟨hen, ?_⟩⟩
  · rw [← pulseCount_eq_ofNat]
    exact deliver_reply (k := .flow) (fun _ => rfl) s
  · refine deliver_of_not_matches fun hmatch => ?_
    obtain ⟨htag, hlen⟩ := Kind.matchesReply_iff.mp hmatch
    have hflow : Kind.flow.tag = s.seq.kind.tag := htag
    exact hp (hlen (Kind.tag_inj.mp hflow).symm)
  · exact deliver_reply (k := .motor) nofun s
  · exact deliver_reply (k := .test) nofun s
  · refine deliver_of_not_matches fun hmatch => ?_
    have htag : t = s.seq.kind.tag := (Kind.matchesReply_iff.mp hmatch).1
    cases hk : s.seq.kind <;> rw [hk] at htag
    · exact hM htag
    · exact hF htag
    · exact hT htag

/-! ### The end of a transaction (R180) -/

/-- The writes a transaction can still make. -/
def writesLeft (s : State) : Nat := if s.seq.state = .write then 1 else 0

/-- The reads a transaction can still make: its whole budget before the wait, then what is left of it. -/
def readsLeft (s : State) : Nat :=
  match s.seq.state with
  | .write => s.cfg.maxPolls
  | .wait => s.cfg.maxPolls - s.seq.polls
  | .free => 0
  | .done => 0

theorem writesLeft_le (s : State) : writesLeft s ≤ 1 := by
  unfold writesLeft
  split <;> omega

theorem readsLeft_le (s : State) : readsLeft s ≤ s.cfg.maxPolls := by
  unfold readsLeft
  split <;> omega

theorem seqLeft_le (s : State) : seqLeft s ≤ s.cfg.maxPolls + 2 := by
  unfold seqLeft
  split <;> omega

/-- A transaction gone on inside its bounds: what is made and what is left never add up to more, and no register of
REG changes. -/
structure Advances (s t : State) : Prop where
  busy : t.seq.state ≠ .free
  writes : t.io.writes + writesLeft t ≤ s.io.writes + writesLeft s
  reads : t.io.reads + readsLeft t ≤ s.io.reads + readsLeft s
  reg : t.reg = s.reg

theorem Advances.refl {s : State} (h : s.seq.state ≠ .free) : Advances s s := ⟨h, le_rfl, le_rfl, rfl⟩

theorem Advances.trans {s t u : State} (h : Advances s t) (h' : Advances t u) : Advances s u :=
  ⟨h'.busy, h'.writes.trans h.writes, h'.reads.trans h.reads, h'.reg.trans h.reg⟩

theorem seqWriteOp_advances {s : State} (h : s.seq.state = .write) : Advances s (seqWriteOp s) := by
  rcases seqWriteOp_cases s with ⟨-, e⟩ | ⟨-, e⟩ <;> rw [e] <;> constructor <;> simp [writesLeft, readsLeft, h]

theorem seqPollOp_advances {s : State} (h : s.seq.state = .wait) : Advances s (seqPollOp s) := by
  obtain ⟨-, -, hreg, hstate, hwrites, -, hreads⟩ := seqPollOp_progress h
  rcases hstate with hst | hst <;> constructor <;> simp [writesLeft, readsLeft, h, hst, hreg, hwrites] <;> omega

/-- A SEQ step of an unfinished transaction advances it and leaves fewer steps. -/
theorem seqStep_advances {s : State} (hbusy : s.seq.state ≠ .free) (hdone : s.seq.state ≠ .done) :
    Advances s (seqStep s) ∧ seqLeft (seqStep s) < seqLeft s := by
  cases h : s.seq.state with
  | free => exact absurd h hbusy
  | write =>
    simp only [seqStep, h]
    exact ⟨seqWriteOp_advances h, (seqWriteOp_progress h).1⟩
  | wait =>
    simp only [seqStep, h]
    exact ⟨seqPollOp_advances h, (seqPollOp_progress h).1⟩
  | done => exact absurd h hdone

/-- Run for the steps it has left, a transaction is finished. -/
theorem seqRun_advances_to_done (n : Nat) {s : State} (hbusy : s.seq.state ≠ .free) (hn : seqLeft s ≤ n) :
    Advances s (seqRun n s) ∧ (seqRun n s).seq.state = .done := by
  induction n generalizing s with
  | zero =>
    have hdone : s.seq.state = .done := by
      by_contra hdone
      have hleft := (seqStep_advances hbusy hdone).2
      omega
    exact ⟨.refl hbusy, hdone⟩
  | succ n ih =>
    by_cases hdone : s.seq.state = .done
    · rw [seqRun_done _ hdone]
      exact ⟨.refl hbusy, hdone⟩
    · obtain ⟨hstep, hleft⟩ := seqStep_advances hbusy hdone
      obtain ⟨hrun, hend⟩ := ih hstep.busy (by omega)
      exact ⟨hstep.trans hrun, hend⟩

theorem seqBegin_busy (q : Request) (s : State) : (seqBegin q s).seq.state ≠ .free := by
  cases hq : q.valid
  · rw [seqBegin_invalid hq]
    simp
  · rw [seqBegin_valid hq]
    simp

/-- Settles O25: SEQ_BEGIN calls nothing, and the fuel of `transaction` covers the steps a transaction can take. -/
theorem everyTransactionEnds : Obligations.EveryTransactionEnds := by
  intro q s _
  obtain ⟨r, hbegin⟩ := seqBegin_frame q s
  have hbusy := seqBegin_busy q s
  unfold transaction
  rw [hbegin] at hbusy ⊢
  obtain ⟨⟨-, hwrites, hreads, hreg⟩, hdone⟩ := seqRun_advances_to_done (s.cfg.maxPolls + 2) hbusy (seqLeft_le _)
  refine ⟨hdone, ?_, ?_, hreg⟩
  · exact (Nat.le_add_right _ _).trans (hwrites.trans (Nat.add_le_add_left (writesLeft_le _) _))
  · exact (Nat.le_add_right _ _).trans (hreads.trans (Nat.add_le_add_left (readsLeft_le _) _))

/-! ### Outside the precondition (log 12) -/

theorem exec_refused {i : Instr} {s : State} (h : enabled i s = false) : exec i s = .refused .notEnabled := by
  rw [exec_eq_whenEnabled, h, whenEnabled_false]

theorem rxEnabled_eq_false {s : State} (h : s.seq.state ≠ .wait) (c : RxClass) (b : Byte) :
    rxEnabled c b s = false :=
  Bool.eq_false_iff.mpr fun hen => h (rxEnabled_iff.mp hen).1

theorem regAt_eq_false {r : RegState} {s : State} (h : s.reg.state ≠ r) (p : Phase) (q : SeqState) :
    regAt r p q s = false := by
  simp [regAt, h]

theorem inOneShot_eq_false {s : State} (hopen : s.reg.state ≠ .fullyOpen) (hclose : s.reg.state ≠ .fullyClose) :
    inOneShot s = false :=
  Bool.eq_false_iff.mpr fun h => (inOneShot_iff.mp h).elim hopen hclose

/-- Settles O51: each row's precondition has the state of its rule as a conjunct. -/
theorem operationsOutsideTheirStateAreRefused : Obligations.OperationsOutsideTheirStateAreRefused := by
  intro s
  refine ⟨fun h => ?_, fun h => ?_, fun h => exec_refused (beq_false_of_ne h), fun h => ?_, fun hopen hclose => ?_,
    fun h => exec_refused (regAt_eq_false h _ _)⟩
  · have hfree := beq_false_of_ne h
    exact ⟨fun _ _ _ => exec_refused hfree, exec_refused hfree, exec_refused hfree⟩
  · have hwait := beq_false_of_ne h
    have hrx := rxEnabled_eq_false h
    exact ⟨exec_refused hwait, exec_refused (hrx _ _),
      fun _ => ⟨exec_refused (hrx _ _), exec_refused (hrx _ _), exec_refused (hrx _ _), exec_refused (hrx _ _),
        exec_refused (hrx _ _)⟩,
      fun _ _ => exec_refused hwait,
      fun _ => ⟨exec_refused hwait, exec_refused hwait, exec_refused hwait, fun _ => exec_refused hwait⟩⟩
  · have hrun := regAt_eq_false h
    exact ⟨exec_refused (hrun _ _), exec_refused (hrun _ _), exec_refused (hrun _ _), exec_refused (hrun _ _)⟩
  · have hshot := inOneShot_eq_false hopen hclose
    refine ⟨exec_refused ?_, exec_refused ?_, exec_refused ?_⟩ <;> simp [enabled, oneShotTop, hshot]

end Sys2Proof.Machine
end

section
/-! The rows that the state registers select (R200), the host operations and the connectivity test (R201 to R203,
R214, R217, R219, R220). -/

namespace Sys2Proof.Machine

/-! ### Rows that take place -/

/-- A row that the block's registers select takes place. -/
theorem BlockRow.exec_eq {s : State} {i : Instr} (h : BlockRow s i) : exec i s = .next (effect i s) :=
  exec_of_enabled h.enabled

/-- Every host operation goes on to its effect. -/
theorem HostRow.exec_eq {i : Instr} (h : HostRow i) (s : State) : exec i s = .next (effect i s) :=
  exec_of_enabled (h.enabled s)

/-- Settles O10: each clause names the registers of one row, and an idle block with a Free sequencer has those of
none. -/
theorem stateRegistersSelectTheStep : Obligations.StateRegistersSelectTheStep := by
  intro s
  refine ⟨fun hseq => (BlockRow.seqWrite hseq).decode_eq, fun hseq => (BlockRow.seqPoll hseq).decode_eq,
    fun hseq hreg hphase => (BlockRow.cyTop ⟨hreg, hphase, hseq⟩).decode_eq,
    fun hseq hreg hphase => (BlockRow.cySample ⟨hreg, hphase, hseq⟩).decode_eq,
    fun hseq hreg hphase => (BlockRow.cyAck ⟨hreg, hphase, hseq⟩).decode_eq,
    fun hseq hreg hphase => (BlockRow.cyWake ⟨hreg, hphase, hseq⟩).decode_eq,
    fun hseq hreg hphase => ?_,
    fun hseq hreg hphase => (BlockRow.osNext ⟨inOneShot_iff.mpr hreg, hphase, hseq⟩).decode_eq,
    fun hseq hreg hphase => (BlockRow.testDone ⟨hreg, hphase, hseq⟩).decode_eq,
    fun hseq hreg => ?_⟩
  · have hshot := inOneShot_iff.mpr hreg
    split_ifs with hrem
    · exact (BlockRow.osEnd ⟨hshot, hphase, hseq, hrem⟩).decode_eq
    · exact (BlockRow.osMove ⟨hshot, hphase, hseq, Nat.pos_of_ne_zero hrem⟩).decode_eq
  · have hshot : ¬ inOneShot s = true := by simp [inOneShot_iff, hreg]
    rw [decode_stepCode]
    simp [hseq, hreg, hshot]

/-! ### SET_TARGET, START and STOP -/

/-- Settles O28: the write is the whole effect of the row. -/
theorem setTargetWritesOnlyTheTarget : Obligations.SetTargetWritesOnlyTheTarget :=
  fun v s => (HostRow.setTarget v).exec_eq s

theorem startOp_of_idle {s : State} (hidle : s.reg.state = .idle) (htarget : 0 < s.reg.targetFlow.toNat) :
    startOp s = { s with
      reg := { s.reg with state := .running, phase := .top, stopFlag := false, lastSampleTime := s.now.1 }
      io := { s.io with times := s.io.times.tail, nows := s.io.nows + 1 } } := by
  rw [startOp, if_pos ⟨hidle, htarget⟩]
  simp only [State.now_state]

theorem startOp_ignored {s : State} (h : s.reg.state ≠ .idle ∨ s.reg.targetFlow.toNat = 0) : startOp s = s :=
  if_neg fun ⟨hidle, htarget⟩ => h.elim (· hidle) htarget.ne'

/-- Settles O29: the two conditions of START are tested together, before the time is read. -/
theorem startRunsFromIdleWithATarget : Obligations.StartRunsFromIdleWithATarget :=
  fun s => ⟨fun hidle htarget => (HostRow.start.exec_eq s).trans (congrArg _ (startOp_of_idle hidle htarget)),
    fun h => (HostRow.start.exec_eq s).trans (congrArg _ (startOp_ignored h))⟩

/-- Settles O30: the test of STOP is on Running alone. -/
theorem stopOnlyRaisesTheFlag : Obligations.StopOnlyRaisesTheFlag :=
  fun s => ⟨fun hrun => (HostRow.stop.exec_eq s).trans (congrArg _ (if_pos hrun)),
    fun hrun => (HostRow.stop.exec_eq s).trans (congrArg _ (if_neg hrun))⟩

/-! ### The one-shot operations and TEST -/

/-- Settles O31: both one-shot operations test Idle alone. -/
theorem oneShotTakesTheDistance : Obligations.OneShotTakesTheDistance := by
  intro s
  rw [HostRow.fullyOpen.exec_eq, HostRow.fullyClose.exec_eq]
  exact ⟨fun hidle => ⟨congrArg _ (if_pos hidle), congrArg _ (if_pos hidle)⟩,
    fun hidle => ⟨congrArg _ (if_neg hidle), congrArg _ (if_neg hidle)⟩⟩

/-- Settles O32: TEST is the begin of a request that always passes its check, and TEST_DONE collects its result. -/
theorem connectivityTestReportsTheLink : Obligations.ConnectivityTestReportsTheLink := by
  intro s
  rw [HostRow.testOp.exec_eq]
  refine ⟨fun hidle => congrArg _ ?_, fun hidle => congrArg _ (if_neg hidle),
    fun htest hphase hdone => (BlockRow.testDone ⟨htest, hphase, hdone⟩).exec_eq⟩
  exact (if_pos hidle).trans (seqBegin_valid (q := .test) rfl _)

/-- Settles O33: the ignoring clauses of the single operations, and the two reserved rows. -/
theorem wrongStateOperationsAreIgnored : Obligations.WrongStateOperationsAreIgnored := by
  intro s
  obtain ⟨-, hstart⟩ := startRunsFromIdleWithATarget s
  obtain ⟨-, hshots⟩ := oneShotTakesTheDistance s
  obtain ⟨-, htest, -⟩ := connectivityTestReportsTheLink s
  obtain ⟨-, hstop⟩ := stopOnlyRaisesTheFlag s
  refine ⟨fun hidle => ?_, hstop, HostRow.reservedOp0.exec_eq s, fun op _ => (HostRow.reservedOp67 op).exec_eq s⟩
  obtain ⟨hopen, hclose⟩ := hshots hidle
  exact ⟨hstart (.inl hidle), hopen, hclose, htest hidle⟩

end Sys2Proof.Machine
end

section
/-! The Running cycle (R204 to R213): which way a correction goes, the outcomes of a sample and of an acknowledged
move, and the band's comparisons in integers. -/

namespace Sys2Proof.Machine

/-! ### CY_TOP and CY_WAKE -/

/-- Settles O36: with the flag the pass through Stopping ends in Idle; without it the Flow request passes its check. -/
theorem cycleTopPollsTheStopFlag : Obligations.CycleTopPollsTheStopFlag := by
  intro s hrun htop hfree
  rw [(BlockRow.cyTop ⟨hrun, htop, hfree⟩).exec_eq]
  refine ⟨fun hstop => congrArg _ ?_, fun hstop => congrArg _ ?_⟩
  · exact if_pos hstop
  · have hgo : ¬ s.reg.stopFlag = true := by simp [hstop]
    refine (if_neg hgo).trans ?_
    rw [seqBegin_valid (q := .flow) rfl]
    rfl

/-- Settles O41: the phase is the whole effect of the row. -/
theorem wakeReturnsToTheTop : Obligations.WakeReturnsToTheTop :=
  fun _ hrun hsleep hfree => (BlockRow.cyWake ⟨hrun, hsleep, hfree⟩).exec_eq

/-! ### Directions (R8) -/

/-- The direction byte of an opening or closing move: forward (0x46) where opening and DIR_OPEN being forward agree,
else backward (0x42). -/
theorem directionByte_eq (p : Params) (opening : Bool) :
    (if opening = decide (p.dirOpen = .forward) then 0x46 else 0x42 : Byte)
      = if opening then dirOpen p else dirClose p := by
  rw [dirOpen_eq, dirClose_eq]
  by_cases hforward : p.dirOpen = .forward <;> cases opening <;> simp [hforward]

/-! ### A sample (R205 to R209, R213) -/

/-- The rate over the elapsed time in seconds, as R205 writes it. -/
theorem rate_eq_div_seconds (p : Params) (pulses : Nat) {e : Nat} (he : e ≠ 0) :
    rate p pulses e = (pulses : Rat) * p.cal / ((e : Rat) / (p.tickHz : Rat)) := by
  rw [rate, if_neg he, div_div_eq_mul_div]

/-- A sample is determined by the difference of its two times modulo 2^TIME_W (R205). -/
theorem rate_unique {p : Params} {t last pulses e : Nat} {r : Rat}
    (he : (e : Int) = ((t : Int) - (last : Int)) % (2 : Int) ^ p.timeW) (h0 : e = 0 → r = 0)
    (hpos : e ≠ 0 → r = (pulses : Rat) * p.cal / ((e : Rat) / (p.tickHz : Rat))) :
    r = rate p pulses (elapsed p t last) := by
  have helapsed : elapsed p t last = e := by exact_mod_cast (elapsed_cast p t last).trans he.symm
  rw [helapsed]
  by_cases hz : e = 0
  · rw [h0 hz, rate, if_pos hz]
  · rw [hpos hz, rate_eq_div_seconds p pulses hz]

theorem correction_of_below {p : Params} {target current : Nat} {r : Rat}
    (h : r < (target : Rat) - tolerance p target) : correction p target current r =
      if openSteps p current = 0 then none else some (dirOpen p, openSteps p current) := by
  rw [correction, (bandOf_below_iff p target r).mpr h]

theorem correction_of_above {p : Params} {target current : Nat} {r : Rat}
    (h : (target : Rat) + tolerance p target < r) : correction p target current r =
      if closeSteps current = 0 then none else some (dirClose p, closeSteps current) := by
  rw [correction, (bandOf_above_iff p target r).mpr h]

theorem correction_of_inside {p : Params} {target current : Nat} {r : Rat}
    (hlow : (target : Rat) - tolerance p target ≤ r) (hhigh : r ≤ (target : Rat) + tolerance p target) :
    correction p target current r = none := by
  rw [correction, (bandOf_inside_iff p target r).mpr ⟨hlow, hhigh⟩]

/-- The state in which a successful sample has been collected and its rate published (R205, R206). -/
def sampled (s : State) (r : Rat) : State :=
  { s with
    seq := { s.seq with state := .free }
    io := { s.io with times := s.io.times.tail, nows := s.io.nows + 1 }
    reg := { s.reg with lastResult := .ok, lastSampleTime := s.now.1, flowOut := r, flowValid := true } }

section
variable {s : State} {r : Rat}

/-- CY_SAMPLE after a failed transaction (R211). -/
theorem cySampleOp_of_failed (h : s.seq.result ≠ .ok) : cySampleOp s = s.collect.toPhase .sleep := by
  rcases cySampleOp_cases s with ⟨-, e⟩ | ⟨hok, -⟩
  · exact e
  · exact absurd hok h

/-- CY_SAMPLE with nothing to correct (R205). -/
theorem cySampleOp_of_correction_none (hok : s.seq.result = .ok)
    (hr : r = rate s.cfg s.seq.value.toNat (elapsed s.cfg s.now.1 s.reg.lastSampleTime))
    (h : correction s.cfg s.reg.targetFlow.toNat s.reg.currentSteps r = none) :
    cySampleOp s = (sampled s r).toPhase .sleep := by
  subst hr
  rcases cySampleOp_cases s with ⟨hfail, -⟩ | ⟨-, _, rfl, _, rfl, ⟨-, e⟩ | ⟨dir, n, hsome, -⟩⟩
  · exact absurd hok hfail
  · exact e
  · cases h.symm.trans hsome

/-- CY_SAMPLE with a correction (R205, R208, R209). -/
theorem cySampleOp_of_correction_some {dir : Byte} {n : Nat} (hok : s.seq.result = .ok)
    (hr : r = rate s.cfg s.seq.value.toNat (elapsed s.cfg s.now.1 s.reg.lastSampleTime))
    (h : correction s.cfg s.reg.targetFlow.toNat s.reg.currentSteps r = some (dir, n)) :
    cySampleOp s = beginMove dir n (sampled s r) := by
  subst hr
  rcases cySampleOp_cases s with ⟨hfail, -⟩ | ⟨-, _, rfl, _, rfl, ⟨hnone, -⟩ | ⟨dir', n', hsome, e⟩⟩
  · exact absurd hok hfail
  · cases h.symm.trans hnone
  · cases h.symm.trans hsome
    exact e

/-- CY_SAMPLE outside the band: the clamped move, or the sleep where the bound leaves nothing to move. -/
theorem cySampleOp_of_correction_ite {dir : Byte} {n : Nat} (hok : s.seq.result = .ok)
    (hr : r = rate s.cfg s.seq.value.toNat (elapsed s.cfg s.now.1 s.reg.lastSampleTime))
    (h : correction s.cfg s.reg.targetFlow.toNat s.reg.currentSteps r = if n = 0 then none else some (dir, n)) :
    cySampleOp s = if n = 0 then (sampled s r).toPhase .sleep else beginMove dir n (sampled s r) := by
  split_ifs at h ⊢ with hn
  · exact cySampleOp_of_correction_none hok hr h
  · exact cySampleOp_of_correction_some hok hr h

/-- A correction begun, its Motor frame at multiplier 1 written out (R93, R205). -/
theorem beginMove_eq_bytes {dir : Byte} (h : isDirection dir = true) (n : Nat) (s : State) : beginMove dir n s =
    { s with
      reg := { s.reg with mvDir := dir, mvN := BitVec.ofNat 8 n, phase := .motorTxn }
      seq := { s.seq with
        kind := .motor, state := .write
        frame := [0xAA, 0x07, 0x4D, dir, BitVec.ofNat 8 n, 0x01,
          0xE0 ^^^ dir ^^^ BitVec.ofNat 8 n ^^^ 0x01] } } := by
  rw [beginMove_eq h, frameBytes_motor]

end

/-- Settles O38: the given rate is the published one, and where it stands against the band says which correction there
is. -/
theorem samplePublishesAndCorrects : Obligations.SamplePublishesAndCorrects := by
  intro s e r hrun hflow hdone he h0 hpos target base io begun asleep up down
  have hexec : exec .cySample s = .next (cySampleOp s) := (BlockRow.cySample ⟨hrun, hflow, hdone⟩).exec_eq
  have hr := rate_unique he h0 hpos
  have hopen : begun true up = beginMove (dirOpen s.cfg) up (sampled s r) := by
    rw [beginMove_eq_bytes (isDirection_dirOpen s.cfg)]
    simp only [begun, directionByte_eq, if_true]
    rfl
  have hclose : begun false down = beginMove (dirClose s.cfg) down (sampled s r) := by
    rw [beginMove_eq_bytes (isDirection_dirClose s.cfg)]
    simp only [begun, directionByte_eq, Bool.false_eq_true, if_false]
    rfl
  rw [hexec, hopen, hclose]
  refine ⟨fun hfail => ?_, fun hok hbelow => ?_, fun hok habove => ?_, fun hok hlow hhigh => ?_⟩
  · rw [cySampleOp_of_failed hfail]
    rfl
  · rw [cySampleOp_of_correction_ite hok hr (correction_of_below hbelow)]
    rfl
  · rw [cySampleOp_of_correction_ite hok hr (correction_of_above habove)]
    rfl
  · rw [cySampleOp_of_correction_none hok hr (correction_of_inside hlow hhigh)]
    rfl

/-! ### The band in integers (R213) -/

section
variable {p : Params} {cn cd tn td : Nat}

theorem rate_eq_natCast_div (hcal : p.cal = (cn : Rat) / (cd : Rat)) (pulses : Nat) {e : Nat} (he : 0 < e) :
    rate p pulses e = ((pulses * cn * p.tickHz : Nat) : Rat) / ((cd * e : Nat) : Rat) := by
  rw [rate, if_neg he.ne', hcal]
  push_cast
  field_simp

theorem band_low_eq_natCast_div (htol : p.tolFrac = (tn : Rat) / (td : Rat)) (htd : 0 < td) (hle : tn ≤ td)
    (target : Nat) :
    (target : Rat) - tolerance p target = ((target * (td - tn) : Nat) : Rat) / (td : Rat) := by
  rw [tolerance, htol]
  push_cast [Nat.cast_sub hle]
  field_simp

theorem band_high_eq_natCast_div (htol : p.tolFrac = (tn : Rat) / (td : Rat)) (htd : 0 < td) (target : Nat) :
    (target : Rat) + tolerance p target = ((target * (td + tn) : Nat) : Rat) / (td : Rat) := by
  rw [tolerance, htol]
  push_cast
  field_simp

end

/-- Settles O39: the rate and both ends of the band are quotients of naturals, which compare by their cross products. -/
theorem bandComparisonsAreIntegral : Obligations.BandComparisonsAreIntegral := by
  intro p pulses target e cn cd tn td he hcd htd hle hcal htol
  have hcde : (0 : Rat) < (cd * e : Nat) := by exact_mod_cast Nat.mul_pos hcd he
  have htd' : (0 : Rat) < td := by exact_mod_cast htd
  rw [bandOf_below_iff, bandOf_above_iff, rate_eq_natCast_div hcal pulses he,
    band_low_eq_natCast_div htol htd hle, band_high_eq_natCast_div htol htd,
    div_lt_div_iff₀ hcde htd', div_lt_div_iff₀ htd' hcde, Nat.mul_assoc _ cd e, Nat.mul_assoc _ cd e]
  exact ⟨by norm_cast, by norm_cast⟩

/-! ### CY_ACK and failed transactions (R210, R211) -/

/-- CY_ACK after a successful transaction (R210). -/
theorem cyAckOp_of_ok {s : State} (h : s.seq.result = .ok) : cyAckOp s =
    { s with
      seq := { s.seq with state := .free }
      reg := { s.reg with
        lastResult := .ok, phase := .sleep, currentSteps := movedSteps s.cfg s.reg } } := by
  simp [cyAckOp, h, State.collect, State.toPhase, movedSteps]

/-- CY_ACK after a failed transaction (R211). -/
theorem cyAckOp_of_failed {s : State} (h : s.seq.result ≠ .ok) : cyAckOp s = s.collect.toPhase .sleep := by
  simp [cyAckOp, h]

/-- Settles O37: after a failure both steps are the collection of the result and the sleep. -/
theorem failedTransactionsSkipToSleep : Obligations.FailedTransactionsSkipToSleep := by
  intro s hrun hdone hfail
  refine ⟨fun hflow => ?_, fun hmotor => ?_⟩
  · rw [(BlockRow.cySample ⟨hrun, hflow, hdone⟩).exec_eq]
    exact congrArg _ (cySampleOp_of_failed hfail)
  · rw [(BlockRow.cyAck ⟨hrun, hmotor, hdone⟩).exec_eq]
    exact congrArg _ (cyAckOp_of_failed hfail)

/-- Settles O40: the result decides whether the position moves, and DIR_OPEN's byte which way. -/
theorem acknowledgedMoveUpdatesThePosition : Obligations.AcknowledgedMoveUpdatesThePosition := by
  intro s hrun hmotor hdone
  have hexec : exec .cyAck s = .next (cyAckOp s) := (BlockRow.cyAck ⟨hrun, hmotor, hdone⟩).exec_eq
  rw [hexec, ← dirOpen_eq]
  by_cases hok : s.seq.result = .ok
  · rw [cyAckOp_of_ok hok, hok]
    rfl
  · rw [cyAckOp_of_failed hok, if_pos hok]
    rfl

end Sys2Proof.Machine
end

section
/-! The one-shot operations (R215 to R218, R223): the bytes of a move, the steps after it, and the plan of a whole
distance. -/

namespace Sys2Proof.Machine

/-! ### The moves of a one-shot operation (R215) -/

theorem oneShotMove_of_le {d : Nat} (h : 200 ≤ d) : oneShotMove d = (200, min (d / 200) 255) := if_pos h

theorem oneShotMove_of_lt {d : Nat} (h : d < 200) : oneShotMove d = (d, 1) := if_neg (Nat.not_le.mpr h)

theorem oneShotDir_eq (s : State) : oneShotDir s =
    if decide (s.reg.state = .fullyOpen) = decide (s.cfg.dirOpen = .forward) then 0x46 else 0x42 := by
  rw [directionByte_eq]
  simp [oneShotDir]

/-- OS_MOVE with the move it makes, its Motor frame written out (R93, R215). -/
theorem osMoveOp_of_move {s : State} {n m : Nat} (h : oneShotMove s.reg.osRem = (n, m)) : osMoveOp s =
    { s with
      reg := { s.reg with osRem := s.reg.osRem - n * m, phase := .motorTxn }
      seq := { s.seq with
        kind := .motor, state := .write
        frame := [0xAA, 0x07, 0x4D, oneShotDir s, BitVec.ofNat 8 n, BitVec.ofNat 8 m,
          0xE0 ^^^ oneShotDir s ^^^ BitVec.ofNat 8 n ^^^ BitVec.ofNat 8 m] } } := by
  rw [osMoveOp_eq, frameBytes_motor, h]

/-- Settles O42: the two forms of the next move, in the operation's direction. -/
theorem oneShotMovesBySizeAndRemainder : Obligations.OneShotMovesBySizeAndRemainder := by
  intro s hshot htop hfree hrem d hd
  have hexec : exec .osMove s = .next (osMoveOp s) :=
    (BlockRow.osMove ⟨inOneShot_iff.mpr hshot, htop, hfree, hrem⟩).exec_eq
  obtain rfl := hd.trans (oneShotDir_eq s).symm
  rw [hexec]
  refine ⟨fun hle m hm => ?_, fun hlt b hb => ?_⟩
  · subst hm
    exact congrArg _ (osMoveOp_of_move (oneShotMove_of_le hle))
  · subst hb
    rw [osMoveOp_of_move (oneShotMove_of_lt hlt), Nat.mul_one, Nat.sub_self]
    rfl

/-- Settles O43: OS_NEXT is the collection of whatever result, OS_END the write of the bound. -/
theorem oneShotGoesOnAndEndsAtTheBound : Obligations.OneShotGoesOnAndEndsAtTheBound := fun _ hshot =>
  ⟨fun hmotor hdone => (BlockRow.osNext ⟨inOneShot_iff.mpr hshot, hmotor, hdone⟩).exec_eq,
    fun htop hfree hrem => (BlockRow.osEnd ⟨inOneShot_iff.mpr hshot, htop, hfree, hrem⟩).exec_eq⟩

/-! ### The plan of a distance (R218) -/

/-- Fuel of at least the distance reaches its end: what holds of the empty plan and is kept when a next move is put in
front holds of every plan. -/
theorem oneShotPlan_induction {P : Nat → List (Nat × Nat) → Prop} (nil : P 0 [])
    (cons : ∀ d l, 0 < d → P (d - (oneShotMove d).1 * (oneShotMove d).2) l → P d (oneShotMove d :: l))
    {fuel d : Nat} (h : d ≤ fuel) : P d (oneShotPlan fuel d) := by
  induction fuel generalizing d with
  | zero =>
    obtain rfl := Nat.le_zero.mp h
    exact nil
  | succ fuel ih =>
    by_cases hd : d = 0
    · subst hd
      exact nil
    · have hpos := Nat.pos_of_ne_zero hd
      obtain ⟨-, -, -, -, hsize, -⟩ := oneShotMove_bounds hpos
      rw [oneShotPlan, if_neg hd]
      exact cons d _ hpos (ih (by omega))

/-- The moves of a distance as R218 lists them: the full moves, what is left of the quotient, the remainder. -/
def listedMoves (d : Nat) : List (Nat × Nat) :=
  (if d / 200 = 0 then [] else
    List.replicate ((d / 200 - 1) / 255) (200, 255) ++ [(200, d / 200 - 255 * ((d / 200 - 1) / 255))])
  ++ (if d % 200 = 0 then [] else [(d % 200, 1)])

theorem listedMoves_of_lt {d : Nat} (hpos : 0 < d) (h : d < 200) : listedMoves d = [(d, 1)] := by
  simp [listedMoves, Nat.div_eq_of_lt h, Nat.mod_eq_of_lt h, hpos.ne']

/-- A quotient that one move takes up is followed by the remainder. -/
theorem listedMoves_of_quotient_le {d : Nat} (h : 200 ≤ d) (hq : d / 200 ≤ 255) :
    listedMoves d = (200, d / 200) :: listedMoves (d - 200 * (d / 200)) := by
  have hdiv : (d - 200 * (d / 200)) / 200 = 0 := by omega
  have hmod : (d - 200 * (d / 200)) % 200 = d % 200 := by omega
  have hk : (d / 200 - 1) / 255 = 0 := by omega
  have hne : d / 200 ≠ 0 := by omega
  simp only [listedMoves, hdiv, hmod, hk, if_pos, if_neg hne]
  simp

/-- A larger quotient begins with a full move, and the rest is listed in the same way. -/
theorem listedMoves_of_lt_quotient {d : Nat} (hq : 255 < d / 200) :
    listedMoves d = (200, 255) :: listedMoves (d - 200 * 255) := by
  obtain ⟨c, rfl⟩ : ∃ c, d = c + 200 * 255 := ⟨d - 200 * 255, by omega⟩
  have hdiv : (c + 200 * 255) / 200 = c / 200 + 255 := by omega
  have hmod : (c + 200 * 255) % 200 = c % 200 := by omega
  have hne : c / 200 ≠ 0 := by omega
  have hk : (c / 200 + 255 - 1) / 255 = (c / 200 - 1) / 255 + 1 := by omega
  have hlast : c / 200 + 255 - 255 * ((c / 200 - 1) / 255 + 1) = c / 200 - 255 * ((c / 200 - 1) / 255) := by omega
  simp only [listedMoves, hdiv, hmod, hk, hlast, Nat.add_sub_cancel, if_neg hne, List.replicate_succ]
  simp

/-- R218's list begins with the move that OS_MOVE makes, and goes on with the list of what is then left. -/
theorem listedMoves_eq_cons {d : Nat} (hpos : 0 < d) :
    listedMoves d = oneShotMove d :: listedMoves (d - (oneShotMove d).1 * (oneShotMove d).2) := by
  rcases Nat.lt_or_ge d 200 with hlt | hle
  · rw [oneShotMove_of_lt hlt, listedMoves_of_lt hpos hlt, Nat.mul_one, Nat.sub_self]
    rfl
  · rw [oneShotMove_of_le hle]
    rcases Nat.lt_or_ge 255 (d / 200) with hq | hq
    · rw [Nat.min_eq_right hq.le]
      exact listedMoves_of_lt_quotient hq
    · rw [Nat.min_eq_left hq]
      exact listedMoves_of_quotient_le hle hq

/-- Settles O44: the list, the sum and the ranges each by induction along the moves of the plan. -/
theorem oneShotPlanSumsToTheDistance : Obligations.OneShotPlanSumsToTheDistance := by
  intro d
  refine ⟨?_, ?_, ?_⟩
  · refine oneShotPlan_induction (P := fun d l => l = listedMoves d) rfl (fun d l hpos ih => ?_) le_rfl
    rw [listedMoves_eq_cons hpos, ih]
  · refine oneShotPlan_induction (P := fun d l => (l.map fun mv => mv.1 * mv.2).sum = d) rfl
      (fun d l hpos ih => ?_) le_rfl
    obtain ⟨-, -, -, -, -, hsize⟩ := oneShotMove_bounds hpos
    rw [List.map_cons, List.sum_cons, ih]
    omega
  · refine oneShotPlan_induction (P := fun _ l => ∀ mv ∈ l, 0 < mv.1 ∧ mv.1 ≤ 200 ∧ 0 < mv.2 ∧ mv.2 ≤ 255)
      (by simp) (fun d l hpos ih => ?_) le_rfl
    obtain ⟨hn, hn200, hm, hm255, -⟩ := oneShotMove_bounds hpos
    exact List.forall_mem_cons.mpr ⟨⟨hn, hn200, hm, hm255⟩, ih⟩

end Sys2Proof.Machine
end


section
/-! The silent device (R173, R253): reads that answer no data use up the budget one by one, and the poll after the last
of them ends the transaction. -/

namespace Sys2Proof.Machine

/-- A poll whose read answers no data (R173). -/
theorem seqStep_noData {s : State} {rest : List ReadAnswer} (h : s.seq.state = .wait)
    (hp : s.seq.polls < s.cfg.maxPolls) (hr : s.io.readAnswers = .noData :: rest) : seqStep s = afterRead s := by
  have hstep : seqStep s = seqPollOp s := by simp only [seqStep, h]
  have hanswer : s.transportRead.1 = .noData := by rw [State.transportRead_answer, hr]; rfl
  rw [hstep]
  rcases seqPollOp_cases s with ⟨hout, -⟩ | ⟨-, herr, -⟩ | ⟨-, -, e⟩ | ⟨-, b, hbyte, -⟩
  · exact absurd hp (Nat.not_lt.mpr hout)
  · rw [hanswer] at herr
    cases herr
  · exact e
  · rw [hanswer] at hbyte
    cases hbyte

/-- The poll that finds the budget used up asks nothing more (R173). -/
theorem seqStep_exhausted {s : State} (h : s.seq.state = .wait) (hp : s.cfg.maxPolls ≤ s.seq.polls) :
    seqStep s = s.finish .noResponse := by
  have hstep : seqStep s = seqPollOp s := by simp only [seqStep, h]
  rw [hstep, seqPollOp, if_pos hp, State.raise_eq_finish]

/-- A wait on a silent link, inside its budget: each poll is one read and nothing else. -/
theorem seqRun_silent (k : Nat) {s : State} {rest : List ReadAnswer} (h : s.seq.state = .wait)
    (hp : s.seq.polls + k ≤ s.cfg.maxPolls) (hr : s.io.readAnswers = List.replicate k .noData ++ rest) :
    seqRun k s = { s with
      seq := { s.seq with polls := s.seq.polls + k }
      io := { s.io with readAnswers := rest, reads := s.io.reads + k } } := by
  induction k generalizing s with
  | zero =>
    subst hr
    rfl
  | succ k ih =>
    have hcons : s.io.readAnswers = .noData :: (List.replicate k .noData ++ rest) := hr
    have hstep := seqStep_noData h (by omega) hcons
    have hbudget : s.seq.polls + 1 + k ≤ s.cfg.maxPolls := by omega
    rw [seqRun, hstep, ih (s := afterRead s) h hbudget (congrArg List.tail hcons)]
    simp only [afterRead, Nat.add_assoc, Nat.add_comm 1]

/-- A wait on a link that stays silent for its whole budget makes the reads of the budget and ends in NoResponse
(R253). -/
theorem seqRun_silent_to_noResponse {s : State} {m : Nat} {rest : List ReadAnswer} (hm : s.cfg.maxPolls = m)
    (h : s.seq.state = .wait) (hp : s.seq.polls = 0) (hr : s.io.readAnswers = List.replicate m .noData ++ rest) :
    seqRun (m + 1) s = State.finish { s with
      seq := { s.seq with polls := m }
      io := { s.io with readAnswers := rest, reads := s.io.reads + m } } .noResponse := by
  have hsilent := seqRun_silent m h (by omega) hr
  rw [hp, Nat.zero_add] at hsilent
  rw [seqRun_add, hsilent]
  exact seqStep_exhausted h hm.le

/-- Settles O26: the accepted write leaves a wait with its whole budget, and the answers cover that budget. -/
theorem silentDeviceGivesNoResponse : Obligations.SilentDeviceGivesNoResponse := by
  intro q s n _ hvalid hwrite hn hreads
  have hsplit : s.io.readAnswers
      = List.replicate s.cfg.maxPolls .noData ++ List.replicate (n - s.cfg.maxPolls) .noData := by
    rw [List.replicate_append_replicate, Nat.add_sub_cancel' hn, hreads]
  have hend := (transaction_written hvalid hwrite).trans (seqRun_silent_to_noResponse rfl rfl rfl hsplit)
  rw [hend]
  exact ⟨rfl, rfl, rfl⟩

end Sys2Proof.Machine
end

section
/-! Turns that run no operation: a quiescent block rests (R292), and the reset input gives every register its reset
value (R290). -/

namespace Sys2Proof.Machine

theorem quiescent_iff {s : State} : quiescent s = true ↔ s.reg.state = .idle ∧ s.seq.state = .free := by
  simp [quiescent]

theorem pick_block_of_quiescent {s : State} (h : quiescent s = true) : pick .block s = .rest := by
  obtain ⟨hidle, hfree⟩ := quiescent_iff.mp h
  obtain ⟨-, -, -, -, -, -, -, -, -, hnone⟩ := stateRegistersSelectTheStep s
  simp only [pick, hnone hfree hidle, h, if_true]

theorem step_of_quiescent {s : State} (hsched : s.io.schedule = []) (h : quiescent s = true) :
    step s = .next s := by
  simp only [step, takeTurn_of_schedule_nil hsched, pick_block_of_quiescent h]

/-- Settles O12: the block's turn in a quiescent state is a rest, and the reset state is quiescent. -/
theorem quiescentBlockRests : Obligations.QuiescentBlockRests :=
  ⟨fun _ hsched hidle hfree => step_of_quiescent hsched (quiescent_iff.mpr ⟨hidle, hfree⟩),
    step_of_quiescent rfl rfl⟩

theorem step_reset_turn {s : State} {rest : List Turn} (hsched : s.io.schedule = .reset :: rest) :
    step s = .next { s.blockReset with io := { s.io with schedule := rest } } := by
  simp only [step, takeTurn_of_schedule_cons hsched, pick]
  rfl

/-- Settles O13: the turn is the reset event, whose next state has the reset registers of every unit. -/
theorem resetStepGivesResetValues : Obligations.ResetStepGivesResetValues := fun _ _ hsched =>
  ⟨_, step_reset_turn hsched, rfl, rfl, rfl, rfl, rfl, rfl, rfl, rfl, rfl, rfl, rfl, rfl, rfl, rfl, rfl, rfl, rfl,
    rfl⟩

end Sys2Proof.Machine
end

section
/-! The end of every operation (R309, R218, R302): a bound on the steps a block has left when HOST does nothing more,
which every step of the block lowers, and the position that a one-shot operation heads for. -/

namespace Sys2Proof.Machine

/-! ### The steps left -/

/-- The steps REG can still take, with the whole transactions it can still begin, when the stop flag is up: a Flow
transaction can lead to a correction, and each move of a one-shot operation covers a step or more of its distance. -/
def regLeft (p : Params) (r : RegRegs) : Nat :=
  match r.state, r.phase with
  | .idle, _ | .stopping, _ => 0
  | .running, .top => 1
  | .running, .sleep => 2
  | .running, .motorTxn => 3
  | .running, .flowTxn => p.maxPolls + 6
  | .fullyOpen, .motorTxn | .fullyClose, .motorTxn => r.osRem * (p.maxPolls + 4) + 2
  | .fullyOpen, _ | .fullyClose, _ => r.osRem * (p.maxPolls + 4) + 1
  | .test, _ => 1

/-- The steps a block has left: those of the transaction in progress and those of REG. -/
def stepsLeft (s : State) : Nat := seqLeft s + regLeft s.cfg s.reg

theorem regLeft_le (p : Params) (r : RegRegs) : regLeft p r ≤ r.osRem * (p.maxPolls + 4) + (p.maxPolls + 6) := by
  unfold regLeft
  split <;> omega

theorem stepsLeft_le (s : State) : stepsLeft s ≤ (s.reg.osRem + 2) * (s.cfg.maxPolls + 4) :=
  calc stepsLeft s
      ≤ (s.cfg.maxPolls + 2) + (s.reg.osRem * (s.cfg.maxPolls + 4) + (s.cfg.maxPolls + 6)) :=
        Nat.add_le_add (seqLeft_le s) (regLeft_le _ _)
    _ = (s.reg.osRem + 2) * (s.cfg.maxPolls + 4) := by ring

section
variable {p : Params} {r : RegRegs}

theorem regLeft_oneShot_top (hstate : r.state = .fullyOpen ∨ r.state = .fullyClose) (hphase : r.phase = .top) :
    regLeft p r = r.osRem * (p.maxPolls + 4) + 1 := by
  rcases hstate with hs | hs <;> simp [regLeft, hs, hphase]

theorem regLeft_oneShot_motorTxn (hstate : r.state = .fullyOpen ∨ r.state = .fullyClose)
    (hphase : r.phase = .motorTxn) : regLeft p r = r.osRem * (p.maxPolls + 4) + 2 := by
  rcases hstate with hs | hs <;> simp [regLeft, hs, hphase]

end

/-! ### What a step of the block does to the steps left -/

section
variable {s : State} {i : Instr}

/-- A sample sleeps or begins a correction, which is a transaction less than the Flow transaction it ends. -/
theorem stepsLeft_cySampleOp (hrun : s.reg.state = .running) :
    stepsLeft (cySampleOp s) ≤ s.cfg.maxPolls + 5 := by
  rcases cySampleOp_cases s with ⟨-, e⟩ | ⟨-, r, -, t, rfl, ⟨-, e⟩ | ⟨dir, n, hcorr, e⟩⟩ <;> rw [e]
  · simp [stepsLeft, seqLeft, regLeft, hrun]
  · simp [stepsLeft, seqLeft, regLeft, hrun]
  · rw [beginMove_eq (isDirection_of_correction hcorr)]
    simp [stepsLeft, seqLeft, regLeft, hrun]

/-- A move of a one-shot operation costs one transaction and takes a step or more off the distance. -/
theorem stepsLeft_osMoveOp (hshot : inOneShot s = true) (hpos : 0 < s.reg.osRem) :
    stepsLeft (osMoveOp s) ≤ s.reg.osRem * (s.cfg.maxPolls + 4) := by
  obtain ⟨-, -, -, -, hsize, -⟩ := oneShotMove_bounds hpos
  rw [osMoveOp_eq]
  generalize (oneShotMove s.reg.osRem).1 * (oneShotMove s.reg.osRem).2 = size at hsize
  calc (s.cfg.maxPolls + 2) + regLeft s.cfg { s.reg with osRem := s.reg.osRem - size, phase := .motorTxn }
      = (s.cfg.maxPolls + 2) + ((s.reg.osRem - size) * (s.cfg.maxPolls + 4) + 2) :=
        congrArg _ (regLeft_oneShot_motorTxn (inOneShot_iff.mp hshot) rfl)
    _ = (s.reg.osRem - size + 1) * (s.cfg.maxPolls + 4) := by ring
    _ ≤ s.reg.osRem * (s.cfg.maxPolls + 4) := Nat.mul_le_mul_right _ (by omega)

/-- Every step of a block whose Running is being stopped leaves it fewer steps. -/
theorem BlockRow.stepsLeft_lt (hrow : BlockRow s i) (hstop : s.reg.state = .running → s.reg.stopFlag = true) :
    stepsLeft (effect i s) < stepsLeft s := by
  cases hrow with
  | seqWrite hwrite =>
    obtain ⟨hlt, hcfg, hreg, -⟩ := seqWriteOp_progress hwrite
    simp only [effect, stepsLeft, hcfg, hreg]
    omega
  | seqPoll hwait =>
    obtain ⟨hlt, hcfg, hreg, -⟩ := seqPollOp_progress hwait
    simp only [effect, stepsLeft, hcfg, hreg]
    omega
  | cyTop hat =>
    obtain ⟨hrun, htop, hfree⟩ := hat
    simp [effect, cyTopOp, hstop hrun, stepsLeft, seqLeft, regLeft, hrun, htop, hfree]
  | cySample hat =>
    obtain ⟨hrun, hflow, -⟩ := hat
    have hleft : regLeft s.cfg s.reg = s.cfg.maxPolls + 6 := by simp only [regLeft, hrun, hflow]
    have hafter := stepsLeft_cySampleOp hrun
    simp only [effect, stepsLeft] at hafter ⊢
    omega
  | cyAck hat =>
    obtain ⟨hrun, hmotor, -⟩ := hat
    by_cases hok : s.seq.result = .ok <;>
      simp [effect, cyAckOp, hok, stepsLeft, seqLeft, regLeft, hrun, hmotor]
  | cyWake hat =>
    obtain ⟨hrun, hsleep, hfree⟩ := hat
    simp [effect, stepsLeft, seqLeft, regLeft, hrun, hsleep, hfree]
  | osMove hat =>
    obtain ⟨hshot, htop, -, hpos⟩ := hat
    have hleft := regLeft_oneShot_top (p := s.cfg) (inOneShot_iff.mp hshot) htop
    have hafter := stepsLeft_osMoveOp hshot hpos
    simp only [effect, stepsLeft] at hafter ⊢
    omega
  | osEnd hat =>
    obtain ⟨hshot, htop, hfree, -⟩ := hat
    have hleft := regLeft_oneShot_top (p := s.cfg) (inOneShot_iff.mp hshot) htop
    have hafter : stepsLeft (effect .osEnd s) = 0 := by simp only [stepsLeft, seqLeft, effect, hfree]; rfl
    rw [hafter, stepsLeft]
    omega
  | osNext hat =>
    obtain ⟨hshot, hmotor, -⟩ := hat
    have hleft := regLeft_oneShot_motorTxn (p := s.cfg) (inOneShot_iff.mp hshot) hmotor
    have hafter : stepsLeft (effect .osNext s) = 0 + (s.reg.osRem * (s.cfg.maxPolls + 4) + 1) :=
      congrArg (0 + ·) (regLeft_oneShot_top (r := (effect .osNext s).reg) (inOneShot_iff.mp hshot) rfl)
    rw [hafter, stepsLeft]
    omega
  | testDone hat =>
    obtain ⟨htest, -, hdone⟩ := hat
    simp [effect, testDoneOp, stepsLeft, seqLeft, regLeft, htest, hdone]

/-! ### Where a step of the block leads -/

/-- A step of the block leaves `reg_state` alone or, as the end of an operation, makes it Idle. -/
theorem BlockRow.state_eq_or_idle (hrow : BlockRow s i) : (effect i s).reg.state = s.reg.state
    ∨ (effect i s).reg.state = .idle := by
  cases hrow with
  | seqWrite hwrite =>
    obtain ⟨-, -, hreg, -⟩ := seqWriteOp_progress hwrite
    exact .inl (congrArg RegRegs.state hreg)
  | seqPoll hwait =>
    obtain ⟨-, -, hreg, -⟩ := seqPollOp_progress hwait
    exact .inl (congrArg RegRegs.state hreg)
  | cyTop _ =>
    by_cases hstop : s.reg.stopFlag = true
    · exact .inr (by simp [effect, cyTopOp, hstop])
    · exact .inl (by simp [effect, cyTopOp, hstop, seqBegin_valid (q := .flow) rfl])
  | cySample _ =>
    rcases cySampleOp_cases s with ⟨-, e⟩ | ⟨-, r, -, t, rfl, ⟨-, e⟩ | ⟨dir, n, hcorr, e⟩⟩ <;>
      simp only [effect, e]
    · exact .inl rfl
    · exact .inl rfl
    · rw [beginMove_eq (isDirection_of_correction hcorr)]
      exact .inl rfl
  | cyAck _ => by_cases hok : s.seq.result = .ok <;> simp [effect, cyAckOp, hok]
  | cyWake _ => exact .inl rfl
  | osMove _ =>
    rw [effect, osMoveOp_eq]
    exact .inl rfl
  | osEnd _ => exact .inr rfl
  | osNext _ => exact .inl rfl
  | testDone _ => exact .inr rfl

/-- A block that HOST leaves alone and that nothing keeps in Running. -/
structure Settling (s : State) : Prop where
  inv : Inv s
  unscheduled : s.io.schedule = []
  stopping : s.reg.state = .running → s.reg.stopFlag = true

theorem BlockRow.keeps_settling (hrow : BlockRow s i) (h : Settling s) : Settling (effect i s) where
  inv := hrow.keeps_inv h.inv
  unscheduled := (effect_owned i s).schedule.trans h.unscheduled
  stopping hrun := by
    rcases hrow.state_eq_or_idle with hsame | hidle
    · have hflag := h.stopping (hsame.symm.trans hrun)
      by_contra hlowered
      rcases (effect_owned i s).reg.stopFlag fun heq => hlowered (heq.trans hflag) with rfl | rfl | rfl
      · nomatch hrow
      · nomatch hrow
      · simp [effect, cyTopOp, hflag] at hrun
    · cases hidle.symm.trans hrun

/-- A one-shot operation whose bound is this position, or an idle block that stands at it. -/
def HeadsFor (n : Nat) (s : State) : Prop :=
  (inOneShot s = true ∧ oneShotBound s = n) ∨ (s.reg.state = .idle ∧ s.reg.currentSteps = n)

theorem HeadsFor.position_of_quiescent {n : Nat} (h : HeadsFor n s) (hq : quiescent s = true) :
    s.reg.currentSteps = n := by
  obtain ⟨hidle, -⟩ := quiescent_iff.mp hq
  rcases h with ⟨hshot, -⟩ | ⟨-, hpos⟩
  · simp [inOneShot, hidle] at hshot
  · exact hpos

theorem HeadsFor.state_ne {n : Nat} (h : HeadsFor n s) : s.reg.state ≠ .running ∧ s.reg.state ≠ .test := by
  rcases h with ⟨hshot, -⟩ | ⟨hidle, -⟩
  · rcases inOneShot_iff.mp hshot with hs | hs <;> simp [hs]
  · simp [hidle]

theorem HeadsFor.congr {n : Nat} (h : HeadsFor n s) {t : State} (hcfg : t.cfg = s.cfg)
    (hstate : t.reg.state = s.reg.state) (hpos : t.reg.currentSteps = s.reg.currentSteps) : HeadsFor n t := by
  simpa only [HeadsFor, inOneShot, oneShotBound, hcfg, hstate, hpos] using h

/-- A step of the block keeps the position headed for: OS_END alone ends the operation, and writes its bound (R216). -/
theorem BlockRow.keeps_headsFor {n : Nat} (hrow : BlockRow s i) (h : HeadsFor n s) : HeadsFor n (effect i s) := by
  obtain ⟨hnotRunning, hnotTest⟩ := h.state_ne
  cases hrow with
  | seqWrite hwrite =>
    obtain ⟨-, hcfg, hreg, -⟩ := seqWriteOp_progress hwrite
    exact h.congr hcfg (congrArg _ hreg) (congrArg _ hreg)
  | seqPoll hwait =>
    obtain ⟨-, hcfg, hreg, -⟩ := seqPollOp_progress hwait
    exact h.congr hcfg (congrArg _ hreg) (congrArg _ hreg)
  | cyTop hat => exact absurd hat.1 hnotRunning
  | cySample hat => exact absurd hat.1 hnotRunning
  | cyAck hat => exact absurd hat.1 hnotRunning
  | cyWake hat => exact absurd hat.1 hnotRunning
  | osMove _ =>
    rw [effect, osMoveOp_eq]
    exact h.congr rfl rfl rfl
  | osEnd hat =>
    rcases h with ⟨-, hbound⟩ | ⟨hidle, -⟩
    · exact .inr ⟨rfl, hbound⟩
    · simp [inOneShot, hidle] at hat
  | osNext _ => exact h.congr rfl rfl rfl
  | testDone hat => exact absurd hat.1 hnotTest

end

/-! ### Runs to quiescence -/

theorem BlockRow.step_eq {s : State} {i : Instr} (hrow : BlockRow s i) (hsched : s.io.schedule = []) :
    step s = .next (effect i s) :=
  (step_schedule_nil hsched hrow.decode_eq).trans hrow.exec_eq

theorem run_succ_of_step {M : Host.Core} {s t : M.State} (h : M.step s = .next t) (n : Nat) :
    M.run (n + 1) s = M.run n t := by
  rw [Host.Core.run, h]

/-- A settling block is quiescent within the steps it has left, at the position it headed for. -/
theorem Settling.reaches_quiescence {s : State} (h : Settling s) : ∃ (n : Nat) (t : State), n ≤ stepsLeft s
    ∧ Host.Core.run core n s = .next t ∧ quiescent t = true ∧ ∀ b, HeadsFor b s → HeadsFor b t := by
  induction hleft : stepsLeft s using Nat.strong_induction_on generalizing s with
  | _ left ih =>
    rcases h.inv.quiescent_or_blockRow with hq | ⟨i, hrow⟩
    · exact ⟨0, s, Nat.zero_le _, rfl, hq, fun _ => id⟩
    · have hlt : stepsLeft (effect i s) < left := hleft ▸ hrow.stepsLeft_lt h.stopping
      obtain ⟨n, t, hn, hrun, hq, hheads⟩ := ih _ hlt (hrow.keeps_settling h) rfl
      exact ⟨n + 1, t, by omega, (run_succ_of_step (M := core) (hrow.step_eq h.unscheduled) n).trans hrun, hq,
        fun b hb => hheads b (hrow.keeps_headsFor hb)⟩

/-- Settles O49: the steps left are within the bound, and a one-shot operation heads for its own bound. -/
theorem everyOperationReachesQuiescence : Obligations.EveryOperationReachesQuiescence := by
  intro s hinv hsched hstop
  obtain ⟨n, t, hn, hrun, hq, hheads⟩ := Settling.reaches_quiescence ⟨hinv, hsched, hstop⟩
  refine ⟨n, t, hn.trans (stepsLeft_le s), hrun, hq, fun hopen => ?_, fun hclose => ?_⟩
  · have hbound : HeadsFor s.cfg.maxTravel s :=
      .inl ⟨inOneShot_iff.mpr (.inl hopen), by simp [oneShotBound, hopen]⟩
    exact (hheads _ hbound).position_of_quiescent hq
  · have hbound : HeadsFor 0 s := .inl ⟨inOneShot_iff.mpr (.inr hclose), by simp [oneShotBound, hclose]⟩
    exact (hheads _ hbound).position_of_quiescent hq

end Sys2Proof.Machine
end

section
/-! The echo (R296): a wait that reads its own request back ends as soon as a frame of its stream is a reply of its
kind, and runs out of polls if none is. -/

namespace Sys2Proof.Machine

/-! ### A wait that reads bytes (R173, R174) -/

/-- A byte changes the receiver alone, and by the receiver's registers alone. -/
theorem rxByte_of_rx_eq (b : Byte) {s t : State} (h : s.rx = t.rx) :
    rxByte b s = ({ s with rx := (rxByte b t).1.rx }, (rxByte b t).2) := by
  obtain ⟨r, hr⟩ := rxByte_frame b s
  obtain ⟨hrx, hframe⟩ := rxByte_congr b h
  rw [← hrx, ← hframe, hr]
  exact Prod.ext hr rfl

section
variable {s : State} {b : Byte} {rest : List ReadAnswer} (hwait : s.seq.state = .wait)
  (hpolls : s.seq.polls < s.cfg.maxPolls) (hreads : s.io.readAnswers = .byte b :: rest)
include hwait hpolls hreads

/-- The poll whose byte completes a reply of the wait's kind ends the transaction with Ok. -/
theorem seqStep_of_reply {f : Frame} (hf : f ∈ (rxByte b s).2) (hmatch : s.seq.kind.matchesReply f = true) :
    (seqStep s).seq.state = .done ∧ (seqStep s).seq.result = .ok := by
  have hend := deliver_of_matches (s := { afterRead s with rx := (rxByte b s).1.rx }) hmatch
  rw [seqStep_byte hwait hpolls hreads, rxByte_of_rx_eq b (afterRead_rx s), Option.mem_def.mp hf, handOver, hend]
  exact ⟨rfl, rfl⟩

/-- The poll whose byte completes no reply of the wait's kind feeds the receiver and goes on waiting. -/
theorem seqStep_of_no_reply (hf : ∀ f ∈ (rxByte b s).2, ¬ s.seq.kind.matchesReply f = true) :
    seqStep s = { afterRead s with rx := (rxByte b s).1.rx } := by
  rw [seqStep_byte hwait hpolls hreads, rxByte_of_rx_eq b (afterRead_rx s)]
  cases hframe : (rxByte b s).2 with
  | none => rfl
  | some f => exact deliver_of_not_matches (hf f hframe)

end

/-- The frames of a stream are those of its first byte and those of the rest. -/
theorem mem_rxFeed_cons {b : Byte} {l : List Byte} {t : State} {f : Frame} :
    f ∈ (rxFeed (b :: l) t).2 ↔ f ∈ (rxByte b t).2 ∨ f ∈ (rxFeed l (rxByte b t).1).2 := by
  simp [rxFeed]

/-- A wait whose budget covers a stream with a reply of its kind in it ends with Ok. -/
theorem seqRun_reply (l : List Byte) {t : State} {rest : List ReadAnswer} (hwait : t.seq.state = .wait)
    (hpolls : t.seq.polls + l.length ≤ t.cfg.maxPolls) (hreads : t.io.readAnswers = l.map .byte ++ rest)
    (hreply : ∃ f ∈ (rxFeed l t).2, t.seq.kind.matchesReply f = true) :
    (seqRun l.length t).seq.state = .done ∧ (seqRun l.length t).seq.result = .ok := by
  induction l generalizing t with
  | nil => simp [rxFeed] at hreply
  | cons b l ih =>
    rw [List.length_cons] at hpolls ⊢
    obtain ⟨f, hf, hmatch⟩ := hreply
    by_cases hnow : ∃ g ∈ (rxByte b t).2, t.seq.kind.matchesReply g = true
    · obtain ⟨g, hg, hgmatch⟩ := hnow
      have hend := seqStep_of_reply hwait (by omega) hreads hg hgmatch
      rwa [seqRun, seqRun_done _ hend.1]
    · rw [seqRun, seqStep_of_no_reply hwait (by omega) hreads fun g hg hgmatch => hnow ⟨g, hg, hgmatch⟩]
      have hlater : f ∈ (rxFeed l (rxByte b t).1).2 :=
        (mem_rxFeed_cons.mp hf).resolve_left fun hg => hnow ⟨f, hg, hmatch⟩
      have hcongr := (rxFeed_congr l (s := { afterRead t with rx := (rxByte b t).1.rx }) (t := (rxByte b t).1) rfl).2
      exact ih hwait (by simp only [afterRead]; omega) (congrArg List.tail hreads) ⟨f, hcongr ▸ hlater, hmatch⟩

/-- A wait whose budget covers a stream without a reply of its kind feeds it to the receiver and goes on waiting. -/
theorem seqRun_no_reply (l : List Byte) {t : State} {rest : List ReadAnswer} (hwait : t.seq.state = .wait)
    (hpolls : t.seq.polls + l.length ≤ t.cfg.maxPolls) (hreads : t.io.readAnswers = l.map .byte ++ rest)
    (hnone : ∀ f ∈ (rxFeed l t).2, ¬ t.seq.kind.matchesReply f = true) :
    seqRun l.length t = { t with
      rx := (rxFeed l t).1.rx
      seq := { t.seq with polls := t.seq.polls + l.length }
      io := { t.io with readAnswers := rest, reads := t.io.reads + l.length } } := by
  induction l generalizing t with
  | nil =>
    subst hreads
    rfl
  | cons b l ih =>
    rw [List.length_cons] at hpolls ⊢
    rw [seqRun, seqStep_of_no_reply hwait (by omega) hreads fun f hf => hnone f (mem_rxFeed_cons.mpr (.inl hf))]
    obtain ⟨hrx, hframes⟩ :=
      rxFeed_congr l (s := { afterRead t with rx := (rxByte b t).1.rx }) (t := (rxByte b t).1) rfl
    rw [ih (t := { afterRead t with rx := (rxByte b t).1.rx }) hwait (by simp only [afterRead]; omega)
      (congrArg List.tail hreads) fun f hf => hnone f (mem_rxFeed_cons.mpr (.inr (hframes ▸ hf))), hrx]
    simp only [afterRead, rxFeed, Nat.add_assoc, Nat.add_comm 1]

/-- A wait whose remaining budget meets silence ends in NoResponse. -/
theorem seqRun_silent_rest (k : Nat) {s : State} {rest : List ReadAnswer} (hwait : s.seq.state = .wait)
    (hpolls : s.seq.polls + k = s.cfg.maxPolls) (hreads : s.io.readAnswers = List.replicate k .noData ++ rest) :
    (seqRun (k + 1) s).seq.result = .noResponse := by
  rw [seqRun_add, seqRun_silent k hwait hpolls.le hreads, seqRun, seqStep_exhausted]
  · rfl
  · exact hwait
  · exact hpolls.ge

/-- Of the first `m` answers of a stream followed by silence, those after the stream are silent. -/
theorem silence_after_stream (l : List Byte) {m n : Nat} (h : m ≤ l.length + n) : ∃ rest,
    (l.drop m).map .byte ++ List.replicate n .noData = List.replicate (m - l.length) ReadAnswer.noData ++ rest := by
  rcases Nat.le_total m l.length with hle | hle
  · rw [Nat.sub_eq_zero_of_le hle]
    exact ⟨_, rfl⟩
  · refine ⟨List.replicate (n - (m - l.length)) .noData, ?_⟩
    rw [List.drop_of_length_le hle, List.replicate_append_replicate, Nat.add_sub_cancel' (by omega)]
    rfl

/-- A wait whose whole budget goes to a stream without a reply of its kind, and then to silence, ends in NoResponse
(R253). A budget shorter than the stream reads the bytes it covers. -/
theorem seqRun_no_reply_to_noResponse (l : List Byte) {t : State} {m n : Nat} (hm : t.cfg.maxPolls = m)
    (hwait : t.seq.state = .wait) (hpolls : t.seq.polls = 0) (hbudget : m ≤ l.length + n)
    (hreads : t.io.readAnswers = l.map .byte ++ List.replicate n .noData)
    (hnone : ∀ f ∈ (rxFeed l t).2, ¬ t.seq.kind.matchesReply f = true) :
    (seqRun (m + 1) t).seq.result = .noResponse := by
  obtain ⟨rest, hsilence⟩ := silence_after_stream l hbudget
  have hsplit := List.take_append_drop m l
  have hlen : (l.take m).length + (m - l.length) = m := by rw [List.length_take]; omega
  have hread : t.io.readAnswers = (l.take m).map .byte ++ (List.replicate (m - l.length) .noData ++ rest) := by
    rw [hreads, ← hsilence, ← List.append_assoc, ← List.map_append, hsplit]
  have hframes : ∀ f ∈ (rxFeed (l.take m) t).2, ¬ t.seq.kind.matchesReply f = true := fun f hf =>
    hnone f (by rw [← hsplit, rxFeed_append]; exact List.mem_append_left _ hf)
  have hfed := seqRun_no_reply (l.take m) hwait (by omega) hread hframes
  rw [← hlen, Nat.add_assoc, seqRun_add, hfed]
  exact seqRun_silent_rest _ hwait (by simp only; omega) rfl

/-! ### A transaction whose request comes back (R296) -/

/-- A written request leaves a wait of its kind, in which its own bytes are one frame. -/
theorem transaction_echo_wait {q : Request} {s : State} (hvalid : q.valid = true) (hwrite : s.nextWriteAnswer = .ok)
    (h0 : s.rx.count.val = 0) (hbuf : s.rx.buf.wf) :
    ∃ w : State, transaction q s = seqRun (s.cfg.maxPolls + 1) w ∧ w.cfg = s.cfg ∧ w.seq.state = .wait
      ∧ w.seq.polls = 0 ∧ w.seq.kind = q.kind ∧ w.io.readAnswers = s.io.readAnswers
      ∧ (rxFeed (frameBytes q.kind.tag q.payload) w).2 = [⟨q.kind.tag, q.payload⟩] := by
  have hwritten := transaction_written hvalid hwrite
  refine ⟨_, hwritten, rfl, rfl, rfl, rfl, rfl, ?_⟩
  have hfits : q.payload.length ≤ 251 := q.payload_length_le.trans (by decide)
  refine (rxFeed_frameBytes _ hfits ?_ ?_).2 <;> simp only <;> split_ifs
  · rfl
  · exact h0
  · exact hbuf
  · exact hbuf

section
variable {q : Request} {s : State} (hvalid : q.valid = true) (hwrite : s.nextWriteAnswer = .ok)
  (h0 : s.rx.count.val = 0) (hbuf : s.rx.buf.wf)
include hvalid hwrite h0 hbuf

/-- A request that is a reply of its own kind is acknowledged by its echo. -/
theorem transaction_echo_ok {rest : List ReadAnswer} (hkind : q.kind ≠ .flow)
    (hpolls : q.payload.length + 4 ≤ s.cfg.maxPolls)
    (hreads : s.io.readAnswers = (frameBytes q.kind.tag q.payload).map .byte ++ rest) :
    (transaction q s).seq.result = .ok := by
  obtain ⟨w, hrun, hcfg, hwait, hzero, hk, hio, hframe⟩ := transaction_echo_wait hvalid hwrite h0 hbuf
  have hmatch : q.kind.matchesReply ⟨q.kind.tag, q.payload⟩ = true :=
    Kind.matchesReply_iff.mpr ⟨rfl, fun hflow => absurd hflow hkind⟩
  have hbudget : (frameBytes q.kind.tag q.payload).length ≤ s.cfg.maxPolls := by rwa [frameBytes_length]
  obtain ⟨hdone, hok⟩ := seqRun_reply (frameBytes q.kind.tag q.payload) hwait
    (by rw [hzero, hcfg]; omega) (hio.trans hreads) ⟨_, hframe ▸ List.mem_singleton_self _, hk ▸ hmatch⟩
  obtain ⟨left, hleft⟩ := Nat.exists_eq_add_of_le (hbudget.trans (Nat.le_add_right _ 1))
  rw [hrun, hleft, seqRun_add, seqRun_done _ hdone, hok]

/-- A request that is no reply of its own kind is not acknowledged by its echo. -/
theorem transaction_echo_noResponse {n : Nat} (hno : ¬ q.kind.matchesReply ⟨q.kind.tag, q.payload⟩ = true)
    (hbudget : s.cfg.maxPolls ≤ q.payload.length + 4 + n)
    (hreads : s.io.readAnswers = (frameBytes q.kind.tag q.payload).map .byte ++ List.replicate n .noData) :
    (transaction q s).seq.result = .noResponse := by
  obtain ⟨w, hrun, hcfg, hwait, hzero, hk, hio, hframe⟩ := transaction_echo_wait hvalid hwrite h0 hbuf
  rw [hrun]
  refine seqRun_no_reply_to_noResponse (frameBytes q.kind.tag q.payload) (by rw [hcfg]) hwait hzero
    (by rwa [frameBytes_length]) (hio.trans hreads) fun f hf => ?_
  rw [hframe, List.mem_singleton] at hf
  rwa [hf, hk]

end

/-- Settles O27: the echo of a Motor or Test request carries its tag and so acknowledges it, while the echo of a Flow
request lacks the two bytes of a Flow reply. -/
theorem echoAcknowledgesMotorAndTest : Obligations.EchoAcknowledgesMotorAndTest := by
  intro s _ h0 hbuf hwrite
  refine ⟨fun d n m rest hd hpolls hreads => ?_, fun rest hpolls hreads => ?_, fun n hbudget hreads => ?_⟩
  · rw [← frameBytes_motor] at hreads
    exact transaction_echo_ok (q := .motor d n m) (isDirection_iff.mpr hd) hwrite h0 hbuf nofun hpolls hreads
  · exact beq_iff_eq.mpr (transaction_echo_ok (q := .test) rfl hwrite h0 hbuf nofun hpolls hreads)
  · have hend := transaction_echo_noResponse (q := .flow) rfl hwrite h0 hbuf (by decide)
      (hbudget.trans_eq (Nat.add_comm n 4)) hreads
    simp [requestFlow, hend]

end Sys2Proof.Machine
end
